-- ==== Sys2Proof/Word.lean ====
section
/-! DEFINITION. The Word and the byte (spec/00_scope.md R5, R6). -/

namespace Sys2Proof

/-- A Word: 16 bits, all arithmetic modulo 2^16; a register, a memory cell, an address, an instruction (R5, R6). -/
abbrev Word := BitVec 16

/-- A character on the input or output port: 8 bits (R5 `CHAR_BITS`). -/
abbrev Byte := BitVec 8

/-- The number of a general register, 0..7; all eight are legal in every register field (R13, R52). -/
abbrev Reg := Fin 8

end Sys2Proof
end

