-- ==== Sys2Proof/Syntax.lean ====
section
/-! DEFINITION. The instructions: one constructor per row of spec/opcode_table.json. -/

namespace Sys2Proof

/-- One constructor per row of the opcode table. A field is the row's bit field, not extended: the offset the
decoder "delivers already sign-extended" (R57) is the extension of this field, made once, at the point of use
(spec/90_conflicts.md C3). Register fields are register numbers (R52). -/
inductive Instr where
  /-- ADD, register mode (R70). -/
  | addReg (dr sr1 sr2 : Reg)
  /-- ADD, immediate mode (R71). -/
  | addImm (dr sr1 : Reg) (imm5 : BitVec 5)
  /-- AND, register mode (R72). -/
  | andReg (dr sr1 sr2 : Reg)
  /-- AND, immediate mode (R73). -/
  | andImm (dr sr1 : Reg) (imm5 : BitVec 5)
  /-- NOT (R74). -/
  | not (dr sr : Reg)
  /-- BR, the mask n z p as one 3-bit field (R55, R80). -/
  | br (nzp : BitVec 3) (off9 : BitVec 9)
  /-- JMP (R81). -/
  | jmp (base : Reg)
  /-- JSR (R82). -/
  | jsr (off11 : BitVec 11)
  /-- JSRR (R83). -/
  | jsrr (base : Reg)
  /-- LD (R90). -/
  | ld (dr : Reg) (off9 : BitVec 9)
  /-- LDI (R91). -/
  | ldi (dr : Reg) (off9 : BitVec 9)
  /-- LDR (R92). -/
  | ldr (dr base : Reg) (off6 : BitVec 6)
  /-- LEA (R93). -/
  | lea (dr : Reg) (off9 : BitVec 9)
  /-- ST (R94). -/
  | st (sr : Reg) (off9 : BitVec 9)
  /-- STI (R95). -/
  | sti (sr : Reg) (off9 : BitVec 9)
  /-- STR (R96). -/
  | str (sr base : Reg) (off6 : BitVec 6)
  /-- The table's generic row TRAP, any vector (R100). The twelve rows below refine it, so the decoder never
  answers it (notes/assumptions/12.md). -/
  | trap (vec : BitVec 8)
  /-- GETC, vector 0x20 (R101). -/
  | getc
  /-- OUT, vector 0x21 (R102). -/
  | out
  /-- PUTS, vector 0x22 (R103). -/
  | puts
  /-- IN, vector 0x23 (R104). -/
  | inChar
  /-- PUTSP, vector 0x24 (R105). -/
  | putsp
  /-- HALT, vector 0x25 (R106). -/
  | halt
  /-- TRAP_UNKNOWN, vectors 0b1vvvvvvv, 0x80..0xFF (R107). -/
  | trapUnknown80 (v : BitVec 7)
  /-- TRAP_UNKNOWN, vectors 0b01vvvvvv, 0x40..0x7F (R107). -/
  | trapUnknown40 (v : BitVec 6)
  /-- TRAP_UNKNOWN, vectors 0b000vvvvv, 0x00..0x1F (R107). -/
  | trapUnknown00 (v : BitVec 5)
  /-- TRAP_UNKNOWN, vectors 0b0011vvvv, 0x30..0x3F (R107). -/
  | trapUnknown30 (v : BitVec 4)
  /-- TRAP_UNKNOWN, vectors 0b00101vvv, 0x28..0x2F (R107). -/
  | trapUnknown28 (v : BitVec 3)
  /-- TRAP_UNKNOWN, vectors 0b0010011v, 0x26..0x27 (R107). -/
  | trapUnknown26 (v : BitVec 1)
  /-- RTI, opcode 0b1000 (R117). -/
  | rti
  /-- RES, opcode 0b1101 (R116). -/
  | res
deriving DecidableEq, Repr

end Sys2Proof
end

