-- ==== Sys2Proof/WellFormed.lean ====
section
/-! DEFINITION. Which instruction terms stand for what the decoder answers. -/

namespace Sys2Proof

/-- Every operand is a field of exactly its encoded width, so every term is encodable as it stands, but for one:
the generic row TRAP, which the twelve rows refining it by vector leave no Word of its own
(opcode_table.json, the row's note; notes/assumptions/12.md). -/
def Instr.wellFormed : Instr → Bool
  | .addReg _ _ _ => true
  | .addImm _ _ _ => true
  | .andReg _ _ _ => true
  | .andImm _ _ _ => true
  | .not _ _ => true
  | .br _ _ => true
  | .jmp _ => true
  | .jsr _ => true
  | .jsrr _ => true
  | .ld _ _ => true
  | .ldi _ _ => true
  | .ldr _ _ _ => true
  | .lea _ _ => true
  | .st _ _ => true
  | .sti _ _ => true
  | .str _ _ _ => true
  | .trap _ => false
  | .getc => true
  | .out => true
  | .puts => true
  | .inChar => true
  | .putsp => true
  | .halt => true
  | .trapUnknown80 _ => true
  | .trapUnknown40 _ => true
  | .trapUnknown00 _ => true
  | .trapUnknown30 _ => true
  | .trapUnknown28 _ => true
  | .trapUnknown26 _ => true
  | .rti => true
  | .res => true

end Sys2Proof
end

