-- ==== Sys2Proof/Decode.lean ====
section
/-! DEFINITION. The decoder (spec/30_encoding.md R51 to R58) and, after it, the encoder (R56). -/

namespace Sys2Proof

/-- The register a 3-bit field names, by its unsigned value (R52). -/
def regOfBits (b : BitVec 3) : Reg := b.toFin

/-- The 3-bit field that names a register (R52). -/
def bitsOfReg (r : Reg) : BitVec 3 := BitVec.ofFin r

/-- The row of the table a trap vector selects: the six routines (R100), else the TRAP_UNKNOWN row of its prefix
(R107, opcode_table.json). -/
def decodeTrap (vec : BitVec 8) : Instr :=
  if vec = 0x20#8 then .getc
  else if vec = 0x21#8 then .out
  else if vec = 0x22#8 then .puts
  else if vec = 0x23#8 then .inChar
  else if vec = 0x24#8 then .putsp
  else if vec = 0x25#8 then .halt
  else if vec.extractLsb' 7 1 = 0b1#1 then .trapUnknown80 (vec.extractLsb' 0 7)
  else if vec.extractLsb' 6 2 = 0b01#2 then .trapUnknown40 (vec.extractLsb' 0 6)
  else if vec.extractLsb' 5 3 = 0b000#3 then .trapUnknown00 (vec.extractLsb' 0 5)
  else if vec.extractLsb' 4 4 = 0b0011#4 then .trapUnknown30 (vec.extractLsb' 0 4)
  else if vec.extractLsb' 3 5 = 0b00101#5 then .trapUnknown28 (vec.extractLsb' 0 3)
  else .trapUnknown26 (vec.extractLsb' 0 1)

/-- The decode function of R57: total and pure, no Word is rejected. The opcode numbers are R51's
(notes/assumptions/13.md), the places of the fields R52's to R55's; bits no field covers are not looked at (R58,
notes/assumptions/14.md). The last arm is opcode 0b1101, the only value left. -/
def decode (w : Word) : Instr :=
  let r9 := regOfBits (w.extractLsb' 9 3)
  let r6 := regOfBits (w.extractLsb' 6 3)
  let r0 := regOfBits (w.extractLsb' 0 3)
  match w.extractLsb' 12 4 with
  | 0b0001#4 => if w.extractLsb' 5 1 = 0b0#1 then .addReg r9 r6 r0 else .addImm r9 r6 (w.extractLsb' 0 5)
  | 0b0101#4 => if w.extractLsb' 5 1 = 0b0#1 then .andReg r9 r6 r0 else .andImm r9 r6 (w.extractLsb' 0 5)
  | 0b1001#4 => .not r9 r6
  | 0b0000#4 => .br (w.extractLsb' 9 3) (w.extractLsb' 0 9)
  | 0b1100#4 => .jmp r6
  | 0b0100#4 => if w.extractLsb' 11 1 = 0b1#1 then .jsr (w.extractLsb' 0 11) else .jsrr r6
  | 0b0010#4 => .ld r9 (w.extractLsb' 0 9)
  | 0b1010#4 => .ldi r9 (w.extractLsb' 0 9)
  | 0b0110#4 => .ldr r9 r6 (w.extractLsb' 0 6)
  | 0b1110#4 => .lea r9 (w.extractLsb' 0 9)
  | 0b0011#4 => .st r9 (w.extractLsb' 0 9)
  | 0b1011#4 => .sti r9 (w.extractLsb' 0 9)
  | 0b0111#4 => .str r9 r6 (w.extractLsb' 0 6)
  | 0b1111#4 => decodeTrap (w.extractLsb' 0 8)
  | 0b1000#4 => .rti
  | _ => .res

/-- What the decoder reads from a table row's bits `w` of `nbits` bits; an instruction is one Word (R50), its
bits above `nbits` zero. -/
def decodeTableWord (nbits w : Nat) : Option Instr :=
  if nbits ≤ 16 then some (decode (BitVec.ofNat 16 (w % 2 ^ nbits))) else none

/-- The TRAP Word of a vector, ignored bits 11..8 zero (R56). -/
def trapWord (vec : BitVec 8) : Word := 0b1111#4 ++ 0b0000#4 ++ vec

/-- The Word of an instruction, by the patterns of R56 with the assembler's canonical ignored bits. -/
def encode : Instr → Word
  | .addReg dr sr1 sr2 => 0b0001#4 ++ bitsOfReg dr ++ bitsOfReg sr1 ++ 0b0#1 ++ 0b00#2 ++ bitsOfReg sr2
  | .addImm dr sr1 imm5 => 0b0001#4 ++ bitsOfReg dr ++ bitsOfReg sr1 ++ 0b1#1 ++ imm5
  | .andReg dr sr1 sr2 => 0b0101#4 ++ bitsOfReg dr ++ bitsOfReg sr1 ++ 0b0#1 ++ 0b00#2 ++ bitsOfReg sr2
  | .andImm dr sr1 imm5 => 0b0101#4 ++ bitsOfReg dr ++ bitsOfReg sr1 ++ 0b1#1 ++ imm5
  | .not dr sr => 0b1001#4 ++ bitsOfReg dr ++ bitsOfReg sr ++ 0b111111#6
  | .br nzp off9 => 0b0000#4 ++ nzp ++ off9
  | .jmp base => 0b1100#4 ++ 0b000#3 ++ bitsOfReg base ++ 0b000000#6
  | .jsr off11 => 0b0100#4 ++ 0b1#1 ++ off11
  | .jsrr base => 0b0100#4 ++ 0b0#1 ++ 0b00#2 ++ bitsOfReg base ++ 0b000000#6
  | .ld dr off9 => 0b0010#4 ++ bitsOfReg dr ++ off9
  | .ldi dr off9 => 0b1010#4 ++ bitsOfReg dr ++ off9
  | .ldr dr base off6 => 0b0110#4 ++ bitsOfReg dr ++ bitsOfReg base ++ off6
  | .lea dr off9 => 0b1110#4 ++ bitsOfReg dr ++ off9
  | .st sr off9 => 0b0011#4 ++ bitsOfReg sr ++ off9
  | .sti sr off9 => 0b1011#4 ++ bitsOfReg sr ++ off9
  | .str sr base off6 => 0b0111#4 ++ bitsOfReg sr ++ bitsOfReg base ++ off6
  | .trap vec => trapWord vec
  | .getc => trapWord 0x20#8
  | .out => trapWord 0x21#8
  | .puts => trapWord 0x22#8
  | .inChar => trapWord 0x23#8
  | .putsp => trapWord 0x24#8
  | .halt => trapWord 0x25#8
  | .trapUnknown80 v => trapWord (0b1#1 ++ v)
  | .trapUnknown40 v => trapWord (0b01#2 ++ v)
  | .trapUnknown00 v => trapWord (0b000#3 ++ v)
  | .trapUnknown30 v => trapWord (0b0011#4 ++ v)
  | .trapUnknown28 v => trapWord (0b00101#5 ++ v)
  | .trapUnknown26 v => trapWord (0b0010011#7 ++ v)
  | .rti => 0x8000#16
  | .res => 0xD000#16

/-- The bits of an instruction's Word that no field covers: the `x` bits of R56, ones here (R58). -/
def ignoredBits : Instr → Word
  | .addReg _ _ _ => 0x0018#16
  | .addImm _ _ _ => 0x0000#16
  | .andReg _ _ _ => 0x0018#16
  | .andImm _ _ _ => 0x0000#16
  | .not _ _ => 0x003F#16
  | .br _ _ => 0x0000#16
  | .jmp _ => 0x0E3F#16
  | .jsr _ => 0x0000#16
  | .jsrr _ => 0x063F#16
  | .ld _ _ => 0x0000#16
  | .ldi _ _ => 0x0000#16
  | .ldr _ _ _ => 0x0000#16
  | .lea _ _ => 0x0000#16
  | .st _ _ => 0x0000#16
  | .sti _ _ => 0x0000#16
  | .str _ _ _ => 0x0000#16
  | .trap _ => 0x0F00#16
  | .getc => 0x0F00#16
  | .out => 0x0F00#16
  | .puts => 0x0F00#16
  | .inChar => 0x0F00#16
  | .putsp => 0x0F00#16
  | .halt => 0x0F00#16
  | .trapUnknown80 _ => 0x0F00#16
  | .trapUnknown40 _ => 0x0F00#16
  | .trapUnknown00 _ => 0x0F00#16
  | .trapUnknown30 _ => 0x0F00#16
  | .trapUnknown28 _ => 0x0F00#16
  | .trapUnknown26 _ => 0x0F00#16
  | .rti => 0x0FFF#16
  | .res => 0x0FFF#16

end Sys2Proof
end

