-- ==== Sys2Proof/Config.lean ====
section
/-! DEFINITION. The parameters a running machine reads (spec/00_scope.md R5) and the free values. -/

namespace Sys2Proof

/-- The parameters of R5 that a running machine reads. State holds them, so that a claim over every state is a
claim over every value of them, as R5 asks. The defaults are R5's own (notes/assumptions/1.md). -/
structure Config where
  /-- Address of the keyboard-status register. -/
  kbsrAddr : Word := 0xFE00#16
  /-- Address of the keyboard-data register; R5: it must differ from `kbsrAddr`. -/
  kbdrAddr : Word := 0xFE02#16
  /-- `IN_PROMPT`: the bytes the IN trap writes before it reads; default the 19 bytes of "Enter a character: ". -/
  inPrompt : List Byte :=
    [0x45, 0x6E, 0x74, 0x65, 0x72, 0x20, 0x61, 0x20, 0x63, 0x68, 0x61, 0x72, 0x61, 0x63, 0x74, 0x65, 0x72, 0x3A, 0x20]
  /-- `HALT_NOTICE`: the bytes the HALT trap writes; default empty. -/
  haltNotice : List Byte := []
deriving DecidableEq, Repr

/-- The free poll answers, run by run: how many polls succeed before the n-th that fails; `none`: no poll fails any
more. R10 leaves the draw open (notes/assumptions/6.md). -/
opaque Config.freeRun : Nat → Option Nat

/-- The free characters of INPUT, stretch by stretch: how many characters other than 0x00 come before the n-th 0x00;
`none`: no 0x00 comes any more (notes/assumptions/5.md). -/
opaque Config.freeStretch : Nat → Option Nat

/-- The k-th character of the n-th stretch, less one: any character but 0x00 (notes/assumptions/5.md). -/
opaque Config.freeChar : Nat → Nat → Fin 255

end Sys2Proof
end

