-- ==== Sys2Proof/Machine/State.lean ====
section
/-! DEFINITION. The state of the machine, its stops, and its state after reset (spec/10_state.md). -/

namespace Sys2Proof.Machine

/-- The condition register: exactly one of NEGATIVE, ZERO, POSITIVE (R15). -/
inductive Cond where
  | n
  | z
  | p
deriving DecidableEq, Repr

/-- The reason and payload of FATAL (R121, notes/assumptions/17.md): `ir` the whole instruction Word, `pc` already
incremented. -/
inductive FatalCause where
  /-- RES or RTI; `opcode` is `ir[15:12]`. -/
  | unimplementedOpcode (opcode : BitVec 4) (ir pc : Word)
  /-- TRAP with a vector outside 0x20..0x25; `vec` is `ir[7:0]`. -/
  | unknownTrapVector (vec : BitVec 8) (ir pc : Word)
deriving DecidableEq, Repr

/-- The engine state (R18). `halted` and `fatal` have no outgoing transition. -/
inductive Run where
  | running
  | halted
  | fatal (cause : FatalCause)
deriving DecidableEq, Repr

/-- A trap whose cycle is never over (the model's own type, notes/assumptions/7.md, 8.md): its linkage is written, and
the next step goes on with it instead of fetching. -/
inductive Busy where
  /-- GETC, waiting for a character (R101). -/
  | getc
  /-- IN, its prompt written, waiting for a character (R104). -/
  | inChar
  /-- PUTS, about to read the Word at `a` (R103). -/
  | puts (a : Word)
  /-- PUTSP, about to read the Word at `a` (R105). -/
  | putsp (a : Word)
deriving DecidableEq, Repr

/-- Memory: 65536 Words (R30), the non-zero ones listed by rising address; an unlisted address reads 0x0000, its
reset value (R23). The cell is the Word, the smallest addressable unit (notes/assumptions/9.md). -/
abbrev Memory := List (Nat × Word)

/-- The environment the host primitives of R10 read and write (R20). -/
structure Env where
  /-- INPUT as far as the state names it: characters not yet consumed, in order. -/
  input : List Byte
  /-- Whether INPUT goes on after `input` with characters the state does not name (notes/assumptions/5.md). -/
  inputOpen : Bool
  /-- The host's answers to the next polls, as far as the state names them; after them the answers are free
  (the model's own field, notes/assumptions/6.md). -/
  draws : List Bool
  /-- How many free poll answers were failures (the model's own field, notes/assumptions/6.md). -/
  fails : Nat
  /-- How many free poll answers were successes since the last failure (the model's own field, notes/assumptions/6.md). -/
  sinceFail : Nat
  /-- How many 0x00 were among the free characters taken (the model's own field, notes/assumptions/5.md). -/
  nuls : Nat
  /-- How many free characters were taken since the last 0x00 (the model's own field, notes/assumptions/5.md). -/
  sinceNul : Nat
  /-- OUTPUT: the bytes written so far, in order. -/
  output : List Byte
deriving DecidableEq, Repr

/-- The whole machine: the registers of R13, R14, R15, R17, the engine state of R18, the memory of R30 (which holds
the two keyboard registers, R33, R34), the environment of R20 and the parameters of R5; and `busy`, the model's own:
the trap whose cycle is never over, if there is one (notes/assumptions/7.md, 8.md). -/
structure State where
  regs : Vector Word 8
  pc : Word
  cond : Cond
  ir : Word
  run : Run
  busy : Option Busy
  mem : Memory
  env : Env
  cfg : Config
deriving DecidableEq, Repr

/-- Why a step stops with a fault. -/
inductive Fault where
  /-- Raised by `step` in a state whose engine is in FATAL: no step exists there and the run has failed (R18, R120).
  Safe: the manual's own terminal fault (notes/assumptions/10.md). -/
  | fatal (cause : FatalCause)
deriving DecidableEq, Repr

/-- Why a step has no meaning. -/
inductive Refusal where
  /-- Raised by an arm of `exec` whose instruction has no meaning yet; no arm does. Safe: nothing can be proved of it. -/
  | notModelled (mnemonic : String)
  /-- Raised by `step` in HALTED: no instruction cycle exists there (R18, R19), the one good end of a run (R142).
  Safe: no next state is claimed (notes/assumptions/11.md). -/
  | halted
deriving DecidableEq, Repr

/-- The parameters that matter at reset alone (R5, R23), with the values the model takes by default. -/
structure Boot where
  /-- `ORIGIN`; default 0x3000 (R5). -/
  origin : Word := 0x3000#16
  /-- `MEM_INIT`; zero everywhere no image wrote (R5, R23). -/
  memInit : Memory := []
  /-- `GPR_RESET`; DESIGN CHOICE zero (notes/assumptions/2.md). -/
  gprReset : Vector Word 8 := Vector.replicate 8 0#16
  /-- `COND_RESET`; DESIGN CHOICE Z (notes/assumptions/3.md). -/
  condReset : Cond := .z
  /-- `ir`, unspecified and unobservable; DESIGN CHOICE zero (notes/assumptions/4.md). -/
  irReset : Word := 0#16
  /-- The run's INPUT; DESIGN CHOICE no named character (notes/assumptions/5.md). -/
  input : List Byte := []
  /-- DESIGN CHOICE: the host goes on delivering characters (notes/assumptions/5.md). -/
  inputOpen : Bool := true
  /-- DESIGN CHOICE: no poll answer is named, each is free (notes/assumptions/6.md). -/
  draws : List Bool := []
  /-- The parameters of R5 a running machine reads. -/
  cfg : Config := {}
deriving DecidableEq, Repr

/-- The state after reset for given parameters (R23). -/
def State.resetWith (b : Boot) : State where
  regs := b.gprReset
  pc := b.origin
  cond := b.condReset
  ir := b.irReset
  run := .running
  busy := none
  mem := b.memInit
  env :=
    { input := b.input, inputOpen := b.inputOpen, draws := b.draws, fails := 0, sinceFail := 0, nuls := 0, sinceNul := 0,
      output := [] }
  cfg := b.cfg

/-- The state after reset, every parameter at its default (R23). -/
def State.reset : State := State.resetWith {}

end Sys2Proof.Machine
end

