-- ==== Sys2Proof/Machine/Ops.lean ====
section
/-! DEFINITION. The named operations over registers, memory, the keyboard and the character ports, the fetch, and
taking an exception (spec/00_scope.md R8 to R11, 20_memory.md R31, R32, 43_trap.md R100, 60_exceptions.md R120). -/

namespace Sys2Proof.Machine

/-- `x[i]` read (R8). -/
def State.reg (s : State) (r : Reg) : Word := s.regs[r]

/-- `x[i] <- v` (R8); no register is hardwired (R13). -/
def State.setReg (s : State) (r : Reg) (v : Word) : State := { s with regs := s.regs.set r v }

/-- `zext_16` of a character (R7). -/
def zext (c : Byte) : Word := c.setWidth 16

/-- Bits 7..0 of a Word: the character OUT and PUTS write, the first one PUTSP writes (R36). -/
def lowByte (w : Word) : Byte := w.extractLsb' 0 8

/-- Bits 15..8 of a Word: the second character PUTSP writes (R36). -/
def highByte (w : Word) : Byte := w.extractLsb' 8 8

/-- `MEM[a]`: the stored Word; what is not listed is zero (R23). -/
def Memory.read : Memory → Word → Word
  | [], _ => 0#16
  | (k, w) :: m, a => if k = a.toNat then w else Memory.read m a

/-- Forget what is listed at an address. -/
def Memory.erase (m : Memory) (a : Word) : Memory := m.filter fun c => c.1 ≠ a.toNat

/-- List a Word at an address, at its place in rising order. -/
def Memory.insert : Memory → Word → Word → Memory
  | [], a, v => [(a.toNat, v)]
  | (k, w) :: m, a, v =>
    if a.toNat < k then (a.toNat, v) :: (k, w) :: m
    else if a.toNat = k then (a.toNat, v) :: m
    else (k, w) :: Memory.insert m a v

/-- `MEM[a] <- v`, keeping the canonical form: a zero Word is not listed (R32). -/
def Memory.write (m : Memory) (a v : Word) : Memory := if v = 0#16 then m.erase a else m.insert a v

/-- The canonical form: addresses strictly rising and below 65536, no zero Word listed. -/
def Memory.wf (m : Memory) : Bool :=
  decide (m.Pairwise fun c d => c.1 < d.1) && m.all fun c => decide (c.1 < 65536) && decide (c.2 ≠ 0#16)

/-- Whether the next free character is a 0x00. -/
def Env.nulNext (e : Env) : Bool := Config.freeStretch e.nuls = some e.sinceNul

/-- The next free character: the first character of INPUT when `input` is empty and `inputOpen`. -/
def Env.freeChar (e : Env) : Byte :=
  if e.nulNext then 0#8 else BitVec.ofNat 8 ((Config.freeChar e.nuls e.sinceNul).val + 1)

/-- The next free character removed. -/
def Env.takeFree (e : Env) : Env :=
  { e with nuls := if e.nulNext then e.nuls + 1 else e.nuls, sinceNul := if e.nulNext then 0 else e.sinceNul + 1 }

/-- `KbdGet` (R10): the first character of INPUT, removed from it; `none` when INPUT is empty for ever and the call
never returns. -/
def Env.kbdGet (e : Env) : Option (Byte × Env) :=
  match e.input with
  | c :: cs => some (c, { e with input := cs })
  | [] => if e.inputOpen then some (e.freeChar, e.takeFree) else none

/-- Whether the next free poll answer is a failure. -/
def Env.failNext (e : Env) : Bool := Config.freeRun e.fails = some e.sinceFail

/-- The host's draw for one poll: has the character arrived (R10)? A named answer, else a free one. -/
def Env.draw (e : Env) : Bool × Env :=
  match e.draws with
  | d :: ds => (d, { e with draws := ds })
  | [] =>
    (!e.failNext,
      { e with
        fails := if e.failNext then e.fails + 1 else e.fails, sinceFail := if e.failNext then 0 else e.sinceFail + 1 })

/-- `KbdPoll` (R10): never waits; `some c` only when INPUT is not empty and c is its first element, which it removes;
`none` always possible. -/
def Env.kbdPoll (e : Env) : Option Byte × Env :=
  let d := e.draw
  if d.1 then
    match d.2.kbdGet with
    | some (c, e') => (some c, e')
    | none => (none, d.2)
  else (none, d.2)

/-- The side effect of a read of `KBSR_ADDR` (R31). The status Word is exactly 0x8000 or 0x0000, the character is
zero-extended and consumed (notes/assumptions/15.md). -/
def State.pollKeyboard (s : State) : State :=
  match s.env.kbdPoll with
  | (some c, e) =>
    { s with mem := (s.mem.write s.cfg.kbsrAddr 0x8000#16).write s.cfg.kbdrAddr (zext c), env := e }
  | (none, e) => { s with mem := s.mem.write s.cfg.kbsrAddr 0#16, env := e }

/-- `MemRead(a, 1)` (R31): every read of memory by the core (R35). -/
def State.memRead (s : State) (a : Word) : Word × State :=
  let s' := if a = s.cfg.kbsrAddr then s.pollKeyboard else s
  (s'.mem.read a, s')

/-- `MemWrite(a, 1, v)` (R32): plain storage at every address. -/
def State.memWrite (s : State) (a v : Word) : State := { s with mem := s.mem.write a v }

/-- `ConOut` of each byte in order (R10): never waits, never fails. -/
def State.conOut (s : State) (bs : List Byte) : State :=
  { s with env := { s.env with output := s.env.output ++ bs } }

/-- `halt` (R11). -/
def State.halt (s : State) : State := { s with run := .halted }

/-- TAKING AN EXCEPTION: `raise Fatal(reason, info)` (R11, R120). It saves nothing in program-visible state, changes
no register, no memory cell and no mode, vectors nowhere; it sets the engine state, with its payload. There is no
return (R120, R127). -/
def State.raiseFatal (s : State) (cause : FatalCause) : State := { s with run := .fatal cause }

/-- TRAP ENTRY (R100, R126): saves exactly one thing, `x[7] <- pc`, the address of the instruction after the TRAP;
control goes nowhere and there is nothing to return from (R127). -/
def State.trapEntry (s : State) : State := s.setReg 7 s.pc

/-- The fetch of the cycle (R19): an ordinary read at the old pc, which polls at `KBSR_ADDR`; then the increment. -/
def State.fetch (s : State) : Word × State :=
  let r := s.memRead s.pc
  (r.1, { r.2 with ir := r.1, pc := r.2.pc + 1 })

end Sys2Proof.Machine
end

