-- ==== Sys2Proof/Machine/Flags.lean ====
section
/-! DEFINITION. The condition-code generator (spec/10_state.md R15, R16). -/

namespace Sys2Proof.Machine

/-- The flag of a result (R16). -/
def condOf (v : Word) : Cond := if v = 0#16 then .z else if v.msb then .n else .p

/-- The one-hot value of a flag, in the order of BR's mask (R15, notes/assumptions/20.md). -/
def Cond.bits : Cond → BitVec 3
  | .n => 0b100#3
  | .z => 0b010#3
  | .p => 0b001#3

/-- `setcc(v)` (R16). -/
def State.setcc (s : State) (v : Word) : State := { s with cond := condOf v }

/-- `x[DR] <- v; setcc(v)`: the result of each of the seven flag-setting instructions (R13, R16). -/
def State.writeResult (s : State) (dr : Reg) (v : Word) : State := (s.setReg dr v).setcc v

end Sys2Proof.Machine
end

