-- ==== Sys2Proof/Machine/Operands.lean ====
section
/-! DEFINITION. The operand forms: immediate, PC-relative, base plus offset (spec/42_load_store.md R97). The
indirect form is a second access at the Word a PC-relative read returned, made in LDI and STI. -/

namespace Sys2Proof.Machine

/-- `sext_N` of an N-bit field (R7). -/
def sext {n : Nat} (v : BitVec n) : Word := v.signExtend 16

/-- `pc + sext_N(off)`, modulo 65536, pc already incremented (R14, R39). -/
def State.pcRel (s : State) {n : Nat} (off : BitVec n) : Word := s.pc + sext off

/-- `x[base] + sext_6(off)`, modulo 65536 (R39). -/
def State.baseOff (s : State) (base : Reg) (off : BitVec 6) : Word := s.reg base + sext off

end Sys2Proof.Machine
end

