-- ==== Sys2Proof/Machine/Control.lean ====
section
/-! DEFINITION. The control-transfer instructions (spec/41_control.md). -/

namespace Sys2Proof.Machine

/-- BR (R80): taken when the bitwise AND of mask and flag is not zero (spec/90_conflicts.md C5). -/
def execBr (nzp : BitVec 3) (off9 : BitVec 9) (s : State) : Host.Outcome State Fault Refusal :=
  .next (if nzp &&& s.cond.bits ≠ 0#3 then { s with pc := s.pcRel off9 } else s)

/-- JMP (R81); RET is JMP R7. -/
def execJmp (base : Reg) (s : State) : Host.Outcome State Fault Refusal :=
  .next { s with pc := s.reg base }

/-- JSR (R82): linkage, then the PC-relative target. -/
def execJsr (off11 : BitVec 11) (s : State) : Host.Outcome State Fault Refusal :=
  .next { s.setReg 7 s.pc with pc := s.pcRel off11 }

/-- JSRR (R83): linkage first, the base register read after it, so JSRR R7 falls through
(notes/assumptions/18.md). -/
def execJsrr (base : Reg) (s : State) : Host.Outcome State Fault Refusal :=
  let s' := s.setReg 7 s.pc
  .next { s' with pc := s'.reg base }

end Sys2Proof.Machine
end

