-- ==== Sys2Proof/Machine/LoadStore.lean ====
section
/-! DEFINITION. The data-movement instructions (spec/42_load_store.md). -/

namespace Sys2Proof.Machine

/-- The common part of LD and LDR: one read, then the result (R90, R92). -/
def State.loadResult (s : State) (dr : Reg) (a : Word) : State :=
  let r := s.memRead a
  r.2.writeResult dr r.1

/-- LD (R90). -/
def execLd (dr : Reg) (off9 : BitVec 9) (s : State) : Host.Outcome State Fault Refusal :=
  .next (s.loadResult dr (s.pcRel off9))

/-- LDI (R91): the pointer is read first, then the datum. -/
def execLdi (dr : Reg) (off9 : BitVec 9) (s : State) : Host.Outcome State Fault Refusal :=
  let r := s.memRead (s.pcRel off9)
  .next (r.2.loadResult dr r.1)

/-- LDR (R92): the base is read before DR is written. -/
def execLdr (dr base : Reg) (off6 : BitVec 6) (s : State) : Host.Outcome State Fault Refusal :=
  .next (s.loadResult dr (s.baseOff base off6))

/-- LEA (R93): the address itself is the result; no access, and the flags are set. -/
def execLea (dr : Reg) (off9 : BitVec 9) (s : State) : Host.Outcome State Fault Refusal :=
  .next (s.writeResult dr (s.pcRel off9))

/-- ST (R94). -/
def execSt (sr : Reg) (off9 : BitVec 9) (s : State) : Host.Outcome State Fault Refusal :=
  .next (s.memWrite (s.pcRel off9) (s.reg sr))

/-- STI (R95): the pointer read, then the write. -/
def execSti (sr : Reg) (off9 : BitVec 9) (s : State) : Host.Outcome State Fault Refusal :=
  let r := s.memRead (s.pcRel off9)
  .next (r.2.memWrite r.1 (r.2.reg sr))

/-- STR (R96). -/
def execStr (sr base : Reg) (off6 : BitVec 6) (s : State) : Host.Outcome State Fault Refusal :=
  .next (s.memWrite (s.baseOff base off6) (s.reg sr))

end Sys2Proof.Machine
end

