-- ==== Sys2Proof/Machine/Reserved.lean ====
section
/-! DEFINITION. The two undefined opcodes (spec/44_reserved.md). -/

namespace Sys2Proof.Machine

/-- RTI (R117): always FATAL; nothing is popped and no register is written. -/
def execRti (s : State) : Host.Outcome State Fault Refusal :=
  .next (s.raiseFatal (.unimplementedOpcode 0b1000#4 s.ir s.pc))

/-- RES (R116): always FATAL. -/
def execRes (s : State) : Host.Outcome State Fault Refusal :=
  .next (s.raiseFatal (.unimplementedOpcode 0b1101#4 s.ir s.pc))

end Sys2Proof.Machine
end

