-- ==== Sys2Proof/Machine/Trap.lean ====
section
/-! DEFINITION. TRAP and its six service routines (spec/43_trap.md). Each routine below is the part after the common
linkage `State.trapEntry` of R100. -/

namespace Sys2Proof.Machine

/-- GETC's routine (R101); with no character to take, the cycle stays open (notes/assumptions/7.md). -/
def getcRoutine (s : State) : Host.Outcome State Fault Refusal :=
  match s.env.kbdGet with
  | some (c, e) => .next (State.setReg { s with env := e } 0 (zext c))
  | none => .next { s with busy := some .getc }

/-- OUT's routine (R102). -/
def outRoutine (s : State) : Host.Outcome State Fault Refusal :=
  .next (s.conOut [lowByte (s.reg 0)])

/-- How many draws in a row can succeed when one is to fail. -/
def Env.drawsLeft (e : Env) : Nat := (Config.freeRun e.fails).getD 0 - e.sinceFail + e.draws.length

/-- How many characters in a row can be other than 0x00 when a 0x00 is to come or INPUT is to end. -/
def Env.charsLeft (e : Env) : Nat := (Config.freeStretch e.nuls).getD 0 - e.sinceNul + e.input.length

/-- The loop of R103 and R105: read a Word, stop on a whole zero Word, write the bytes `emit` gives, go on at the
next address modulo 65536. After `n` Words it answers the address it would read next. -/
def stringWalk (emit : Word → List Byte) : Nat → Word → State → Option Word × State
  | 0, a, s => (some a, s)
  | n + 1, a, s =>
    let r := s.memRead a
    if r.1 = 0#16 then (none, r.2) else stringWalk emit n (a + 1) (r.2.conOut (emit r.1))

/-- The loop, `n` times over all of memory. -/
def stringPasses (emit : Word → List Byte) : Nat → Word → State → Option Word × State
  | 0, a, s => (some a, s)
  | n + 1, a, s =>
    match stringWalk emit 65536 a s with
    | (none, t) => (none, t)
    | (some b, t) => stringPasses emit n b t

/-- How many times a string walk goes over all of memory in one step: enough for every walk that ends
(notes/assumptions/8.md). -/
def walkPasses (s : State) : Nat := s.env.drawsLeft + s.env.charsLeft + 2

/-- A string routine from address `a`; a walk that does not end leaves the cycle open (notes/assumptions/8.md). -/
def stringRoutine (emit : Word → List Byte) (more : Word → Busy) (a : Word) (s : State) :
    Host.Outcome State Fault Refusal :=
  match stringPasses emit (walkPasses s) a s with
  | (none, t) => .next t
  | (some b, t) => .next { t with busy := some (more b) }

/-- What PUTS writes of a Word (R103). -/
def putsEmit (w : Word) : List Byte := [lowByte w]

/-- What PUTSP writes of a Word: the low byte always, the high byte if it is not zero (R105,
notes/assumptions/19.md). -/
def putspEmit (w : Word) : List Byte := if highByte w = 0#8 then [lowByte w] else [lowByte w, highByte w]

/-- PUTS's routine from address `a` (R103). -/
def putsRoutine (a : Word) (s : State) : Host.Outcome State Fault Refusal := stringRoutine putsEmit .puts a s

/-- PUTSP's routine from address `a` (R105). -/
def putspRoutine (a : Word) (s : State) : Host.Outcome State Fault Refusal := stringRoutine putspEmit .putsp a s

/-- IN after its prompt (R104): wait, echo, store (notes/assumptions/21.md); with no character to take, the cycle stays
open (notes/assumptions/7.md). -/
def inReceive (s : State) : Host.Outcome State Fault Refusal :=
  match s.env.kbdGet with
  | some (c, e) => .next ((State.conOut { s with env := e } [c]).setReg 0 (zext c))
  | none => .next { s with busy := some .inChar }

/-- IN's routine (R104): prompt, then the rest. -/
def inRoutine (s : State) : Host.Outcome State Fault Refusal := inReceive (s.conOut s.cfg.inPrompt)

/-- HALT's routine (R106, notes/assumptions/21.md). -/
def haltRoutine (s : State) : Host.Outcome State Fault Refusal :=
  .next (s.conOut s.cfg.haltNotice).halt

/-- A vector with no routine (R107): the linkage is already written (notes/assumptions/17.md). -/
def unknownVector (vec : BitVec 8) (s : State) : Host.Outcome State Fault Refusal :=
  .next (s.raiseFatal (.unknownTrapVector vec s.ir s.pc))

/-- TRAP, the generic row: linkage, then dispatch on the vector (R100). -/
def execTrap (vec : BitVec 8) (s : State) : Host.Outcome State Fault Refusal :=
  let s' := s.trapEntry
  if vec = 0x20#8 then getcRoutine s'
  else if vec = 0x21#8 then outRoutine s'
  else if vec = 0x22#8 then putsRoutine (s'.reg 0) s'
  else if vec = 0x23#8 then inRoutine s'
  else if vec = 0x24#8 then putspRoutine (s'.reg 0) s'
  else if vec = 0x25#8 then haltRoutine s'
  else unknownVector vec s'

/-- GETC (R100, R101). -/
def execGetc (s : State) : Host.Outcome State Fault Refusal := getcRoutine s.trapEntry

/-- OUT (R100, R102). -/
def execOut (s : State) : Host.Outcome State Fault Refusal := outRoutine s.trapEntry

/-- PUTS (R100, R103). -/
def execPuts (s : State) : Host.Outcome State Fault Refusal := putsRoutine (s.trapEntry.reg 0) s.trapEntry

/-- IN (R100, R104). -/
def execIn (s : State) : Host.Outcome State Fault Refusal := inRoutine s.trapEntry

/-- PUTSP (R100, R105). -/
def execPutsp (s : State) : Host.Outcome State Fault Refusal := putspRoutine (s.trapEntry.reg 0) s.trapEntry

/-- HALT (R100, R106). -/
def execHalt (s : State) : Host.Outcome State Fault Refusal := haltRoutine s.trapEntry

/-- TRAP_UNKNOWN, vectors 0x80..0xFF (R107). -/
def execTrapUnknown80 (v : BitVec 7) (s : State) : Host.Outcome State Fault Refusal :=
  unknownVector (0b1#1 ++ v) s.trapEntry

/-- TRAP_UNKNOWN, vectors 0x40..0x7F (R107). -/
def execTrapUnknown40 (v : BitVec 6) (s : State) : Host.Outcome State Fault Refusal :=
  unknownVector (0b01#2 ++ v) s.trapEntry

/-- TRAP_UNKNOWN, vectors 0x00..0x1F (R107). -/
def execTrapUnknown00 (v : BitVec 5) (s : State) : Host.Outcome State Fault Refusal :=
  unknownVector (0b000#3 ++ v) s.trapEntry

/-- TRAP_UNKNOWN, vectors 0x30..0x3F (R107). -/
def execTrapUnknown30 (v : BitVec 4) (s : State) : Host.Outcome State Fault Refusal :=
  unknownVector (0b0011#4 ++ v) s.trapEntry

/-- TRAP_UNKNOWN, vectors 0x28..0x2F (R107). -/
def execTrapUnknown28 (v : BitVec 3) (s : State) : Host.Outcome State Fault Refusal :=
  unknownVector (0b00101#5 ++ v) s.trapEntry

/-- TRAP_UNKNOWN, vectors 0x26..0x27 (R107). -/
def execTrapUnknown26 (v : BitVec 1) (s : State) : Host.Outcome State Fault Refusal :=
  unknownVector (0b0010011#7 ++ v) s.trapEntry

/-- Going on with the trap whose cycle is never over. -/
def resume (b : Busy) (s : State) : Host.Outcome State Fault Refusal :=
  match b with
  | .getc => getcRoutine s
  | .inChar => inReceive s
  | .puts a => putsRoutine a s
  | .putsp a => putspRoutine a s

end Sys2Proof.Machine
end

