-- ==== Sys2Proof/Machine/Step.lean ====
section
/-! DEFINITION. One instruction cycle (spec/10_state.md R19), and placing an instruction where the next cycle
fetches it. -/

namespace Sys2Proof.Machine

/-- One instruction cycle (R19): a step exists only in RUNNING; fetch, increment, decode, execute. In a trap's cycle
that is never over, a step goes on with that cycle (notes/assumptions/7.md, 8.md). -/
def step (s : State) : Host.Outcome State Fault Refusal :=
  match s.run with
  | .running =>
    match s.busy with
    | none => exec (decode s.fetch.1) s.fetch.2
    | some b => resume b { s with busy := none }
  | .halted => .refused .halted
  | .fatal cause => .fault (.fatal cause)

/-- The state with an instruction Word stored where the next cycle fetches it, the engine running and no trap's
cycle open, so that the next step runs it (notes/assumptions/23.md, 24.md). -/
def State.withFetchWord (s : State) (nbits w : Nat) : State :=
  { s with mem := s.mem.write s.pc (BitVec.ofNat 16 (w % 2 ^ nbits)), run := .running, busy := none }

end Sys2Proof.Machine
end

