-- ==== Sys2Proof/Safety.lean ====
section
/-! DEFINITION. Final states, safe runs, and the invariant of the data. -/

namespace Sys2Proof.Machine

/-- A good final state: only HALTED (R142). -/
abbrev State.final (s : State) : Prop := s.run = .halted

/-- A safe run of `k` steps: no fault ends it, and it does not arrive in FATAL (R142: FATAL is a fault, never a
final state). It may end earlier in HALTED. -/
def SafeFor (k : Nat) (s : State) : Prop :=
  (∀ f, Sys2Proof.core.run k s ≠ .fault f) ∧
  ∀ t, Sys2Proof.core.run k s = .next t → ∀ cause, State.run t ≠ .fatal cause

/-- The data invariant: memory in its canonical form, and the two mapped addresses distinct as R5 asks. -/
abbrev State.Inv (s : State) : Prop := s.mem.wf = true ∧ s.cfg.kbsrAddr ≠ s.cfg.kbdrAddr

end Sys2Proof.Machine
end

