-- ==== Sys2Proof/Certificates/Slice0/Obligations.lean ====
section
/-! DEFINITION. The statements for the provers, from the spec's numbered rules. A statement whose docstring says
"the model's choice" names the log entry; a clause that rests on a decision D<n> of the spec names it. -/

open Sys2Proof Sys2Proof.Machine

namespace Sys2Proof.Claims

/-- The destination of the seven flag-setting instructions (R13, R16). -/
def flagDest : Instr → Option Reg
  | .addReg dr _ _ => some dr
  | .addImm dr _ _ => some dr
  | .andReg dr _ _ => some dr
  | .andImm dr _ _ => some dr
  | .not dr _ => some dr
  | .ld dr _ => some dr
  | .ldi dr _ => some dr
  | .ldr dr _ _ => some dr
  | .lea dr _ => some dr
  | _ => none

/-- TRAP in every form the table gives it. -/
def isTrap : Instr → Bool
  | .trap _ => true
  | .getc => true
  | .out => true
  | .puts => true
  | .inChar => true
  | .putsp => true
  | .halt => true
  | .trapUnknown80 _ => true
  | .trapUnknown40 _ => true
  | .trapUnknown00 _ => true
  | .trapUnknown30 _ => true
  | .trapUnknown28 _ => true
  | .trapUnknown26 _ => true
  | _ => false

/-- The instructions that write R7 with the address of the next instruction (R84). -/
def links : Instr → Bool
  | .jsr _ => true
  | .jsrr _ => true
  | i => isTrap i

/-- Whether a vector selects one of the six routines (R100). -/
def knownVector (vec : BitVec 8) : Prop := 0x20 ≤ vec.toNat ∧ vec.toNat ≤ 0x25

/-- GETC or IN, by name or by vector: the routines that write R0 (R13). -/
def readsChar (i : Instr) : Prop := i = .getc ∨ i = .inChar ∨ i = .trap 0x20#8 ∨ i = .trap 0x23#8

/-- The registers an instruction may write (R13). -/
def mayWrite (i : Instr) (r : Reg) : Prop :=
  flagDest i = some r ∨ (links i = true ∧ r = 7) ∨ (readsChar i ∧ r = 0)

/-- The four instructions that write pc besides the cycle's increment (R14, R84). -/
def isControl : Instr → Bool
  | .br _ _ => true
  | .jmp _ => true
  | .jsr _ => true
  | .jsrr _ => true
  | _ => false

/-- The three store instructions (R32). -/
def isStore : Instr → Bool
  | .st _ _ => true
  | .sti _ _ => true
  | .str _ _ _ => true
  | _ => false

/-- The instructions that may write to the character output (R131): OUT, PUTS, IN, PUTSP and HALT's notice. -/
def mayOutput : Instr → Bool
  | .out => true
  | .puts => true
  | .inChar => true
  | .putsp => true
  | .halt => true
  | .trap _ => true
  | _ => false

/-- Whether an instruction may take a character or poll: GETC, IN, the string walks, and a load or pointer read at
the keyboard-status address (R35). -/
def mayReadKeyboard (i : Instr) (s : State) : Prop :=
  match i with
  | .ld _ off9 => s.pc + off9.signExtend 16 = s.cfg.kbsrAddr
  | .ldi _ off9 =>
    s.pc + off9.signExtend 16 = s.cfg.kbsrAddr ∨ s.mem.read (s.pc + off9.signExtend 16) = s.cfg.kbsrAddr
  | .ldr _ base off6 => s.reg base + off6.signExtend 16 = s.cfg.kbsrAddr
  | .sti _ off9 => s.pc + off9.signExtend 16 = s.cfg.kbsrAddr
  | .getc => True
  | .puts => True
  | .inChar => True
  | .putsp => True
  | .trap _ => True
  | _ => False

/-- The state with another environment on its input side and the same OUTPUT. -/
def withInputSide (s : State) (e : Env) : State := { s with env := { e with output := s.env.output } }

/-- Addresses `a`, `a + 1`, … hold the Words `ws` and then a zero Word, none of them the keyboard-status address. -/
def HoldsString (s : State) (a : Word) (ws : List Word) : Prop :=
  (∀ k, k ≤ ws.length → a + BitVec.ofNat 16 k ≠ s.cfg.kbsrAddr) ∧
  (∀ k, (h : k < ws.length) → s.mem.read (a + BitVec.ofNat 16 k) = ws[k] ∧ ws[k] ≠ 0#16) ∧
  s.mem.read (a + BitVec.ofNat 16 ws.length) = 0#16

/-- The bytes PUTS writes of a Word: bits 7..0 (R103). -/
def putsBytes (w : Word) : List Byte := [w.extractLsb' 0 8]

/-- The bytes PUTSP writes of a Word: bits 7..0 always, bits 15..8 if not zero (R105, the spec's decision D15). -/
def putspBytes (w : Word) : List Byte :=
  if w.extractLsb' 8 8 = 0#8 then [w.extractLsb' 0 8] else [w.extractLsb' 0 8, w.extractLsb' 8 8]

/-- The loop of R103 and R105 as the spec's pseudocode runs it, without a bound: `StringLoop bytes a s t` when the
walk from address `a` in state `s` ends in state `t`. -/
inductive StringLoop (bytes : Word → List Byte) : Word → State → State → Prop
  | stop {a : Word} {s : State} : (s.memRead a).1 = 0#16 → StringLoop bytes a s (s.memRead a).2
  | more {a : Word} {s t : State} : (s.memRead a).1 ≠ 0#16 →
      StringLoop bytes (a + 1) ((s.memRead a).2.conOut (bytes (s.memRead a).1)) t → StringLoop bytes a s t

/-- What is left of INPUT, all of it: the named characters, whether free ones follow, and the place reached among the
free ones (the model's own form of INPUT, log 5). -/
def inputLeft (e : Env) : List Byte × Bool × Nat × Nat := (e.input, e.inputOpen, e.nuls, e.sinceNul)

/-- The environment after `KbdGet` has taken `n` characters, if INPUT has so many. -/
def afterTaking : Nat → Env → Option Env
  | 0, e => some e
  | n + 1, e =>
    match e.kbdGet with
    | some (_, e') => afterTaking n e'
    | none => none

/-- The register a store instruction stores and the address it stores to (R94 to R96). -/
def storeOf (i : Instr) (s : State) : Option (Reg × Word) :=
  match i with
  | .st sr off9 => some (sr, s.pc + off9.signExtend 16)
  | .sti sr off9 => some (sr, (s.memRead (s.pc + off9.signExtend 16)).1)
  | .str sr base off6 => some (sr, s.reg base + off6.signExtend 16)
  | _ => none

end Sys2Proof.Claims

open Sys2Proof.Claims

/-! ### Encoding -/

/-- Sample Words, each written out from the patterns of R56 (the opcode numbers are the spec's decision D1, log 13),
and Words that differ from them in ignored bits (R58). -/
def Obligations.SampleWordsDecodeAsTheTableSays : Prop :=
  decode 0b0001010000000001#16 = .addReg 2 0 1 ∧ decode 0b0001010000011001#16 = .addReg 2 0 1 ∧
  decode 0b0001001001111111#16 = .addImm 1 1 0b11111#5 ∧ decode 0b0101010000000001#16 = .andReg 2 0 1 ∧
  decode 0b0101101101101111#16 = .andImm 5 5 0b01111#5 ∧ decode 0b1001001010111111#16 = .not 1 2 ∧
  decode 0b1001001010000000#16 = .not 1 2 ∧ decode 0b0000010000000101#16 = .br 0b010#3 5#9 ∧
  decode 0b1100000010000000#16 = .jmp 2 ∧ decode 0b1100111010111111#16 = .jmp 2 ∧
  decode 0b0100100000010000#16 = .jsr 16#11 ∧ decode 0b0100011010111111#16 = .jsrr 2 ∧
  decode 0b0010001000000010#16 = .ld 1 2#9 ∧ decode 0b1010010000000001#16 = .ldi 2 1#9 ∧
  decode 0b0110011100111111#16 = .ldr 3 4 0b111111#6 ∧ decode 0b1110000000000010#16 = .lea 0 2#9 ∧
  decode 0b0011001000000010#16 = .st 1 2#9 ∧ decode 0b1011010000000001#16 = .sti 2 1#9 ∧
  decode 0b0111011100111111#16 = .str 3 4 0b111111#6 ∧ decode 0b1111101000100101#16 = .halt ∧
  decode 0b1111000000100000#16 = .getc ∧ decode 0b1111000000100110#16 = .trapUnknown26 0#1 ∧
  decode 0b1000000100100011#16 = .rti ∧ decode 0b1101101010111100#16 = .res

/-- Decoding the Word of a well-formed instruction gives the instruction back, with every operand (R56, R57). -/
def Obligations.DecodeOfEncodeIsTheInstruction : Prop :=
  ∀ i : Instr, i.wellFormed = true → decode (encode i) = i

/-- Two Words decode alike exactly when they differ in ignored bits only (R57, R58; that a non-canonical Word is legal
is the spec's decision D5, log 14). -/
def Obligations.WordsDecodeAlikeIffOnlyIgnoredBitsDiffer : Prop :=
  ∀ w w' : Word, decode w = decode w' ↔ (w ^^^ w') &&& ~~~(ignoredBits (decode w)) = 0#16

/-- The decoder answers well-formed instructions only: the generic row TRAP is always refined by its vector
(opcode_table.json, the row's note; the model's choice, log 12). -/
def Obligations.DecodedInstructionsAreWellFormed : Prop :=
  ∀ w : Word, (decode w).wellFormed = true

/-- The Words that stop the engine in FATAL are exactly the two opcodes 0b1000 and 0b1101 and TRAP with a vector
outside 0x20..0x25 (R59; the last by the spec's decision D13). -/
def Obligations.FatalWordsAreExactlyTheIllegalOnes : Prop :=
  ∀ (w : Word) (s : State), s.run = .running →
    ((∃ t cause, exec (decode w) s = .next t ∧ t.run = .fatal cause) ↔
      (w.extractLsb' 12 4 = 0b1000#4 ∨ w.extractLsb' 12 4 = 0b1101#4 ∨
        (w.extractLsb' 12 4 = 0b1111#4 ∧ ¬ knownVector (w.extractLsb' 0 8))))

/-! ### The cycle -/

/-- R19: in RUNNING a step reads the Word at pc (an ordinary read), puts it in ir, increments pc modulo 65536, decodes
it and executes it; in no other engine state does a step exist. With a cycle open that is never over, `busy` not empty,
a step does not fetch: the model's choice (log 7, log 8), so that both fetching clauses have `busy` empty as a premise. -/
def Obligations.StepFetchesIncrementsDecodesExecutes : Prop :=
  (∀ s : State, s.run = .running → s.busy = none →
    step s = exec (decode (s.memRead s.pc).1)
      { (s.memRead s.pc).2 with ir := (s.memRead s.pc).1, pc := s.pc + 1 }) ∧
  (∀ s : State, s.run = .running → s.busy = none → s.pc ≠ s.cfg.kbsrAddr →
    step s = exec (decode (s.mem.read s.pc)) { s with ir := s.mem.read s.pc, pc := s.pc + 1 }) ∧
  (∀ s t : State, s.run ≠ .running → step s ≠ .next t)

/-- HALTED and FATAL are left by no step (R18); that a step answers a refusal in HALTED and the fault in FATAL is the
model's choice (log 10, log 11). -/
def Obligations.NoStepLeavesHaltedOrFatal : Prop :=
  (∀ s : State, s.run = .halted → step s = .refused .halted) ∧
  (∀ (s : State) (cause : FatalCause), s.run = .fatal cause → step s = .fault (.fatal cause))

/-- A fetch from the keyboard-status address polls: it runs RTI and stops in FATAL, or runs a no-op (R35; the status
Word is the spec's decision D6). -/
def Obligations.FetchAtKeyboardStatusIsRtiOrNoOp : Prop :=
  ∀ s : State, s.run = .running → s.busy = none → s.pc = s.cfg.kbsrAddr → s.cfg.kbsrAddr ≠ s.cfg.kbdrAddr →
    ∃ t, step s = .next t ∧ t.regs = s.regs ∧ t.cond = s.cond ∧ t.pc = s.pc + 1 ∧ t.env = s.env.kbdPoll.2 ∧
      ((s.env.kbdPoll.1.isSome = true ∧ t.ir = 0x8000#16 ∧ t.mem.read s.pc = 0x8000#16 ∧
          t.run = .fatal (.unimplementedOpcode 0b1000#4 0x8000#16 (s.pc + 1))) ∨
        (s.env.kbdPoll.1 = none ∧ t.ir = 0#16 ∧ t.mem.read s.pc = 0#16 ∧ t.run = .running))

/-- An instruction placed by `withFetchWord` is the one the next step runs (the model's interface, log 23, log 24). -/
def Obligations.PlacedWordIsRunNext : Prop :=
  ∀ (s : State) (w : Nat), s.pc ≠ s.cfg.kbsrAddr → w < 65536 →
    step (s.withFetchWord 16 w) =
      exec (decode (BitVec.ofNat 16 w))
        { s with
          mem := s.mem.write s.pc (BitVec.ofNat 16 w), run := .running, busy := none, ir := BitVec.ofNat 16 w,
          pc := s.pc + 1 }

/-! ### Memory and the keyboard -/

/-- R32: a write stores the Word at its address, the mapped addresses included, changes no other address and nothing
else. What it stored anywhere but at the keyboard-status address is what the next read there returns. What it stored at
the keyboard-status address the next read there overwrites with the poll's result: the read answers, and leaves in
every cell, what it would had nothing been stored, and the cell holds the Word answered. What stands at the
keyboard-data address stays over every write elsewhere, every read of another address than the status one, and every
poll without success. -/
def Obligations.WriteStoresTheWordAndNothingElse : Prop :=
  ∀ (s : State) (a v : Word),
    (∀ b, (s.memWrite a v).mem.read b = if b = a then v else s.mem.read b) ∧
    (s.memWrite a v = { s with mem := (s.memWrite a v).mem }) ∧
    (a ≠ s.cfg.kbsrAddr → ((s.memWrite a v).memRead a).1 = v) ∧
    (∀ r q, r = (s.memWrite s.cfg.kbsrAddr v).memRead s.cfg.kbsrAddr → q = s.memRead s.cfg.kbsrAddr →
      r.1 = q.1 ∧ r.2.mem.read s.cfg.kbsrAddr = r.1 ∧ ∀ b, r.2.mem.read b = q.2.mem.read b) ∧
    (a ≠ s.cfg.kbdrAddr → (s.memWrite a v).mem.read s.cfg.kbdrAddr = s.mem.read s.cfg.kbdrAddr) ∧
    (a ≠ s.cfg.kbsrAddr → (s.memRead a).2.mem.read s.cfg.kbdrAddr = s.mem.read s.cfg.kbdrAddr) ∧
    (s.cfg.kbsrAddr ≠ s.cfg.kbdrAddr → s.env.kbdPoll.1 = none →
      (s.memRead s.cfg.kbsrAddr).2.mem.read s.cfg.kbdrAddr = s.mem.read s.cfg.kbdrAddr)

/-- A read of any address but the keyboard-status one returns the stored Word and changes nothing (R31, R34, R38). -/
def Obligations.ReadElsewhereReturnsTheStoredWord : Prop :=
  ∀ (s : State) (a : Word), a ≠ s.cfg.kbsrAddr → s.memRead a = (s.mem.read a, s)

/-- R31: a read of the keyboard-status address polls; a character taken sets the status to 0x8000 and stands
zero-extended in the data register, none clears the status and keeps the data register (0x8000, the consumption and
the zero extension are the spec's decisions D6, D7, D9). -/
def Obligations.ReadOfKeyboardStatusPolls : Prop :=
  ∀ s : State, s.cfg.kbsrAddr ≠ s.cfg.kbdrAddr →
    (∀ c, s.env.kbdPoll.1 = some c →
      (s.memRead s.cfg.kbsrAddr).1 = 0x8000#16 ∧
      ∀ b, (s.memRead s.cfg.kbsrAddr).2.mem.read b =
        if b = s.cfg.kbsrAddr then 0x8000#16 else if b = s.cfg.kbdrAddr then c.setWidth 16 else s.mem.read b) ∧
    (s.env.kbdPoll.1 = none →
      (s.memRead s.cfg.kbsrAddr).1 = 0#16 ∧
      ∀ b, (s.memRead s.cfg.kbsrAddr).2.mem.read b = if b = s.cfg.kbsrAddr then 0#16 else s.mem.read b) ∧
    (s.memRead s.cfg.kbsrAddr).2 =
      { s with mem := (s.memRead s.cfg.kbsrAddr).2.mem, env := s.env.kbdPoll.2 }

/-- R10: a poll answers `none` and leaves all of INPUT as it was, or answers the first character of INPUT, the one
`KbdGet` would take, and removes just what `KbdGet` would (the removal is the spec's decision D7); OUTPUT stays, and
whether INPUT goes on. After a poll without success `KbdGet` takes the character it would have taken before. Neither
answer is shut out: `none` is possible in every environment, and so is the first character when there is one. Which
happens is a free value (log 6). An INPUT is a list of named characters and, with `inputOpen`, free characters after
them: the model's choice (log 5), on which the clauses with no named character rest. -/
def Obligations.PollIsADrawOverTheFirstCharacter : Prop :=
  ∀ e : Env,
    e.kbdPoll.2.output = e.output ∧ e.kbdPoll.2.inputOpen = e.inputOpen ∧
    ((e.kbdPoll.1 = none ∧ inputLeft e.kbdPoll.2 = inputLeft e) ∨
      (∃ c e', e.kbdPoll.1 = some c ∧ e.kbdGet = some (c, e') ∧ inputLeft e.kbdPoll.2 = inputLeft e')) ∧
    (e.kbdPoll.1 = none → e.kbdPoll.2.kbdGet.map Prod.fst = e.kbdGet.map Prod.fst) ∧
    (∀ c cs, e.input = c :: cs → e.kbdGet = some (c, { e with input := cs })) ∧
    (e.input = [] → e.inputOpen = true → e.kbdGet = some (e.freeChar, e.takeFree) ∧
      e.takeFree = { e with nuls := e.takeFree.nuls, sinceNul := e.takeFree.sinceNul }) ∧
    (e.input = [] → e.inputOpen = false → e.kbdGet = none) ∧
    (∃ d, ({ e with draws := d } : Env).kbdPoll.1 = none) ∧
    (∀ c e', e.kbdGet = some (c, e') → ∃ d, ({ e with draws := d } : Env).kbdPoll.1 = some c)

/-- R33: two successful polls in a row with two characters pending lose the first character. -/
def Obligations.SecondPollLosesTheFirstCharacter : Prop :=
  ∀ (s : State) (c c' : Byte) (cs : List Byte) (ds : List Bool), s.cfg.kbsrAddr ≠ s.cfg.kbdrAddr →
    s.env.input = c :: c' :: cs → s.env.draws = true :: true :: ds →
    ((s.memRead s.cfg.kbsrAddr).2.memRead s.cfg.kbsrAddr).2.mem.read s.cfg.kbdrAddr = c'.setWidth 16 ∧
    ((s.memRead s.cfg.kbsrAddr).2.memRead s.cfg.kbsrAddr).2.env.input = cs

/-- R44: what ST, STI or STR stores at the next instruction's address is what the next cycle fetches, with no fence. -/
def Obligations.StoreToTheNextInstructionIsFetched : Prop :=
  ∀ (s : State) (sr : Reg), s.run = .running → s.busy = none → s.pc ≠ s.cfg.kbsrAddr → s.pc + 1 ≠ s.cfg.kbsrAddr →
    storeOf (decode (s.mem.read s.pc)) { s with ir := s.mem.read s.pc, pc := s.pc + 1 } = some (sr, s.pc + 1) →
    ∃ t, step s = .next t ∧ t.pc = s.pc + 1 ∧
      step t = exec (decode (s.reg sr)) { t with ir := s.reg sr, pc := s.pc + 1 + 1 }

/-! ### Flags and arithmetic -/

/-- R16: after each of the seven flag-setting instructions the flag is a function of the Word just written to the
destination: Z if it is zero, N if bit 15 is set, else P; every other instruction leaves the flag. -/
def Obligations.FlagsFollowTheWrittenResult : Prop :=
  ∀ (i : Instr) (s t : State), exec i s = .next t →
    (∀ dr, flagDest i = some dr →
      (t.reg dr = 0#16 → t.cond = .z) ∧
      (32768 ≤ (t.reg dr).toNat → t.cond = .n) ∧
      (0 < (t.reg dr).toNat → (t.reg dr).toNat < 32768 → t.cond = .p)) ∧
    (flagDest i = none → t.cond = s.cond)

/-- R7: `sext_N` of an N-bit field v is v + (65536 - 2^N) when bit N-1 of v is set, else v, and so the same
two's-complement number; `zext_16` of a character is the same unsigned number. -/
def Obligations.SignExtensionReplicatesTheTopBit : Prop :=
  (∀ v : BitVec 5, (sext v).toInt = v.toInt ∧
    (sext v).toNat = if v.getLsbD 4 then v.toNat + (65536 - 2 ^ 5) else v.toNat) ∧
  (∀ v : BitVec 6, (sext v).toInt = v.toInt ∧
    (sext v).toNat = if v.getLsbD 5 then v.toNat + (65536 - 2 ^ 6) else v.toNat) ∧
  (∀ v : BitVec 9, (sext v).toInt = v.toInt ∧
    (sext v).toNat = if v.getLsbD 8 then v.toNat + (65536 - 2 ^ 9) else v.toNat) ∧
  (∀ v : BitVec 11, (sext v).toInt = v.toInt ∧
    (sext v).toNat = if v.getLsbD 10 then v.toNat + (65536 - 2 ^ 11) else v.toNat) ∧
  (∀ c : Byte, (zext c).toNat = c.toNat)

/-! ### Operate instructions: the result, and by the whole next state the frame -/

/-- R70: ADD, register mode, adds modulo 65536. -/
def Obligations.AddRegisterResult : Prop :=
  ∀ (dr sr1 sr2 : Reg) (s : State), ∃ v : Word,
    v.toNat = ((s.reg sr1).toNat + (s.reg sr2).toNat) % 65536 ∧
    exec (.addReg dr sr1 sr2) s = .next { s with regs := s.regs.set dr v, cond := condOf v }

/-- R71: ADD, immediate mode, adds the sign-extended constant modulo 65536. -/
def Obligations.AddImmediateResult : Prop :=
  ∀ (dr sr1 : Reg) (imm5 : BitVec 5) (s : State), ∃ v : Word,
    v.toNat = ((s.reg sr1).toNat + (imm5.signExtend 16).toNat) % 65536 ∧
    exec (.addImm dr sr1 imm5) s = .next { s with regs := s.regs.set dr v, cond := condOf v }

/-- R72: AND, register mode, bit by bit. -/
def Obligations.AndRegisterResult : Prop :=
  ∀ (dr sr1 sr2 : Reg) (s : State), ∃ v : Word,
    (∀ k, v.getLsbD k = ((s.reg sr1).getLsbD k && (s.reg sr2).getLsbD k)) ∧
    exec (.andReg dr sr1 sr2) s = .next { s with regs := s.regs.set dr v, cond := condOf v }

/-- R73: AND, immediate mode: the constant is extended before the AND. -/
def Obligations.AndImmediateResult : Prop :=
  ∀ (dr sr1 : Reg) (imm5 : BitVec 5) (s : State), ∃ v : Word,
    (∀ k, v.getLsbD k = ((s.reg sr1).getLsbD k && (imm5.signExtend 16).getLsbD k)) ∧
    exec (.andImm dr sr1 imm5) s = .next { s with regs := s.regs.set dr v, cond := condOf v }

/-- R74: NOT, 65535 minus the source. -/
def Obligations.NotResult : Prop :=
  ∀ (dr sr : Reg) (s : State), ∃ v : Word,
    v.toNat = 65535 - (s.reg sr).toNat ∧
    exec (.not dr sr) s = .next { s with regs := s.regs.set dr v, cond := condOf v }

/-- R75: NOT, ADD #1, ADD is an exact subtraction modulo 65536. -/
def Obligations.SubtractionIsNotThenAddOneThenAdd : Prop :=
  ∀ (d a b : Reg) (s : State), d ≠ a →
    ∃ s1 s2 s3, exec (.not d b) s = .next s1 ∧ exec (.addImm d d 1#5) s1 = .next s2 ∧
      exec (.addReg d a d) s2 = .next s3 ∧ s3.reg d = s.reg a - s.reg b

/-! ### Control transfer -/

/-- R80: BR is taken when the mask names the current flag (n is bit 2 of the mask, z bit 1, p bit 0; the places of n
and p are the spec's general knowledge, log 20); taken, pc gets pc plus the offset; nothing else changes. -/
def Obligations.BranchTakenIffTheMaskNamesTheFlag : Prop :=
  ∀ (nzp : BitVec 3) (off9 : BitVec 9) (s : State),
    exec (.br nzp off9) s = .next { s with
      pc := if (s.cond = .n ∧ nzp.getLsbD 2 = true) ∨ (s.cond = .z ∧ nzp.getLsbD 1 = true) ∨
          (s.cond = .p ∧ nzp.getLsbD 0 = true)
        then s.pc + off9.signExtend 16 else s.pc }

/-- R60: the Words 0x0000..0x01FF do nothing beyond the cycle's increment of pc. -/
def Obligations.WordsWithAnEmptyMaskAreNoOps : Prop :=
  ∀ (w : Word) (s : State), w.toNat < 0x0200 → exec (decode w) s = .next s

/-- R81: JMP. -/
def Obligations.JumpResult : Prop :=
  ∀ (base : Reg) (s : State), exec (.jmp base) s = .next { s with pc := s.reg base }

/-- R82: JSR writes R7 with the address of the next instruction and goes to pc plus the offset. -/
def Obligations.CallResult : Prop :=
  ∀ (off11 : BitVec 11) (s : State),
    exec (.jsr off11) s = .next { s with regs := s.regs.set 7 s.pc, pc := s.pc + off11.signExtend 16 }

/-- R83: JSRR writes R7 first and reads the base after it, so JSRR R7 goes on at the next instruction (the order is the
spec's decision D14, log 18). -/
def Obligations.CallThroughRegisterResult : Prop :=
  ∀ (base : Reg) (s : State),
    exec (.jsrr base) s =
      .next { s with regs := s.regs.set 7 s.pc, pc := if base = 7 then s.pc else s.reg base }

/-! ### Loads and stores -/

/-- R90, R92: LD and LDR read their address once and write what they read; away from the keyboard-status address
nothing but the destination and the flag changes, and there the poll's effects are added. -/
def Obligations.LoadResult : Prop :=
  ∀ (s : State) (dr base : Reg) (off9 : BitVec 9) (off6 : BitVec 6),
    (∀ r, r = s.memRead (s.pc + off9.signExtend 16) →
      exec (.ld dr off9) s = .next { r.2 with regs := s.regs.set dr r.1, cond := condOf r.1 }) ∧
    (∀ r, r = s.memRead (s.reg base + off6.signExtend 16) →
      exec (.ldr dr base off6) s = .next { r.2 with regs := s.regs.set dr r.1, cond := condOf r.1 }) ∧
    (∀ v, v = s.mem.read (s.pc + off9.signExtend 16) → s.pc + off9.signExtend 16 ≠ s.cfg.kbsrAddr →
      exec (.ld dr off9) s = .next { s with regs := s.regs.set dr v, cond := condOf v }) ∧
    (∀ v, v = s.mem.read (s.reg base + off6.signExtend 16) → s.reg base + off6.signExtend 16 ≠ s.cfg.kbsrAddr →
      exec (.ldr dr base off6) s = .next { s with regs := s.regs.set dr v, cond := condOf v })

/-- R91: LDI reads the pointer, then the datum at the Word the first read returned; the flag is the datum's. -/
def Obligations.LoadIndirectResult : Prop :=
  ∀ (s : State) (dr : Reg) (off9 : BitVec 9),
    (∀ r q, r = s.memRead (s.pc + off9.signExtend 16) → q = r.2.memRead r.1 →
      exec (.ldi dr off9) s = .next { q.2 with regs := s.regs.set dr q.1, cond := condOf q.1 }) ∧
    (∀ a v, a = s.mem.read (s.pc + off9.signExtend 16) → v = s.mem.read a →
      s.pc + off9.signExtend 16 ≠ s.cfg.kbsrAddr → a ≠ s.cfg.kbsrAddr →
      exec (.ldi dr off9) s = .next { s with regs := s.regs.set dr v, cond := condOf v })

/-- R93: LEA writes the address itself, reads nothing, and sets the flag. -/
def Obligations.LoadEffectiveAddressResult : Prop :=
  ∀ (s : State) (dr : Reg) (off9 : BitVec 9) (v : Word), v = s.pc + off9.signExtend 16 →
    exec (.lea dr off9) s = .next { s with regs := s.regs.set dr v, cond := condOf v }

/-- R94, R96: ST and STR store the source register at the computed address; every other address and everything else
stays. -/
def Obligations.StoreResult : Prop :=
  ∀ (s : State) (sr base : Reg) (off9 : BitVec 9) (off6 : BitVec 6),
    (∃ t, exec (.st sr off9) s = .next t ∧ t = { s with mem := t.mem } ∧
      ∀ b, t.mem.read b = if b = s.pc + off9.signExtend 16 then s.reg sr else s.mem.read b) ∧
    (∃ t, exec (.str sr base off6) s = .next t ∧ t = { s with mem := t.mem } ∧
      ∀ b, t.mem.read b = if b = s.reg base + off6.signExtend 16 then s.reg sr else s.mem.read b)

/-- R95: STI reads the pointer (a poll if it lies at the keyboard-status address), then stores the source register at
the Word it read; every other address and everything else is as the pointer read left it. -/
def Obligations.StoreIndirectResult : Prop :=
  ∀ (s : State) (sr : Reg) (off9 : BitVec 9),
    (∀ r, r = s.memRead (s.pc + off9.signExtend 16) →
      ∃ t, exec (.sti sr off9) s = .next t ∧ t = { r.2 with mem := t.mem } ∧
        ∀ b, t.mem.read b = if b = r.1 then s.reg sr else r.2.mem.read b) ∧
    (s.pc + off9.signExtend 16 ≠ s.cfg.kbsrAddr →
      ∃ t, exec (.sti sr off9) s = .next t ∧ t = { s with mem := t.mem } ∧
        ∀ b, t.mem.read b = if b = s.mem.read (s.pc + off9.signExtend 16) then s.reg sr else s.mem.read b)

/-! ### Traps -/

/-- R126: every TRAP saves exactly one thing, pc in R7; pc stays, the flags stay, the parameters and ir stay, no other
register changes but R0 in GETC and IN, and no memory cell outside the two mapped addresses changes. -/
def Obligations.TrapEntrySavesPcInR7AndNothingElse : Prop :=
  ∀ (i : Instr) (s t : State), isTrap i = true → exec i s = .next t →
    t.reg 7 = s.pc ∧ t.pc = s.pc ∧ t.cond = s.cond ∧ t.ir = s.ir ∧ t.cfg = s.cfg ∧
    (∀ r, r ≠ 7 → (r ≠ 0 ∨ ¬ readsChar i) → t.reg r = s.reg r) ∧
    (∀ b, b ≠ s.cfg.kbsrAddr → b ≠ s.cfg.kbdrAddr → t.mem.read b = s.mem.read b)

/-- R100: the generic row TRAP (kept as a constructor beside the rows of its vectors: the model's choice, log 12) does
what the row its vector selects does, and its cycle is over after one step: always for OUT, HALT and the vectors with no
routine; for GETC and IN when INPUT has a character, named or, with `inputOpen`, free (log 5); for PUTS and PUTSP when
INPUT is closed or the state names a poll that fails (log 8; when just it is, `StringTrapsRunTheLoopAndEnd` says). -/
def Obligations.GenericTrapDispatchesOnItsVector : Prop :=
  ∀ (vec : BitVec 8) (s : State),
    exec (.trap vec) s = exec (decodeTrap vec) s ∧
    (s.busy = none →
      ((vec = 0x20#8 ∨ vec = 0x23#8) → (s.env.input ≠ [] ∨ s.env.inputOpen = true) →
        ∃ t, exec (.trap vec) s = .next t ∧ t.busy = none) ∧
      ((vec = 0x22#8 ∨ vec = 0x24#8) → (s.env.inputOpen = false ∨ false ∈ s.env.draws) →
        ∃ t, exec (.trap vec) s = .next t ∧ t.busy = none) ∧
      (vec ≠ 0x20#8 → vec ≠ 0x22#8 → vec ≠ 0x23#8 → vec ≠ 0x24#8 →
        ∃ t, exec (.trap vec) s = .next t ∧ t.busy = none))

/-- R101: GETC takes the first character of INPUT into the whole of R0 (zero-extended: the spec's decision D9); with
INPUT open and no named character it takes a free one (the model's choice, log 5); with INPUT empty for ever it never
completes, which the model answers with a state whose cycle stays open (log 7). -/
def Obligations.GetcResult : Prop :=
  ∀ s : State,
    (∀ c cs, s.env.input = c :: cs →
      exec .getc s = .next { s with
        regs := (s.regs.set 7 s.pc).set 0 (c.setWidth 16), env := { s.env with input := cs } }) ∧
    (s.env.input = [] → s.env.inputOpen = true →
      exec .getc s = .next { s with
        regs := (s.regs.set 7 s.pc).set 0 (s.env.freeChar.setWidth 16), env := s.env.takeFree }) ∧
    (s.env.input = [] → s.env.inputOpen = false →
      exec .getc s = .next { s with regs := s.regs.set 7 s.pc, busy := some .getc })

/-- R102: OUT, vector 0x21, appends bits 7..0 of R0 to OUTPUT; only R7 is written besides. -/
def Obligations.OutResult : Prop :=
  decodeTrap 0x21#8 = .out ∧ ∀ s : State, ∃ b : Byte, b.toNat = (s.reg 0).toNat % 256 ∧
    exec .out s = .next { s with
      regs := s.regs.set 7 s.pc, env := { s.env with output := s.env.output ++ [b] } }

/-- R104: IN writes the prompt, takes a character, echoes it and stores it in R0; with no character ever it never
completes, and the prompt has then already been written. The last two clauses as in `GetcResult` (zero extension and
the prompt are the spec's decisions D9, D10; the model's choices log 5, log 7). -/
def Obligations.InResult : Prop :=
  ∀ s : State,
    (∀ c cs, s.env.input = c :: cs →
      exec .inChar s = .next { s with
        regs := (s.regs.set 7 s.pc).set 0 (c.setWidth 16),
        env := { s.env with input := cs, output := s.env.output ++ s.cfg.inPrompt ++ [c] } }) ∧
    (s.env.input = [] → s.env.inputOpen = true →
      exec .inChar s = .next { s with
        regs := (s.regs.set 7 s.pc).set 0 (s.env.freeChar.setWidth 16),
        env := { s.env.takeFree with output := s.env.output ++ s.cfg.inPrompt ++ [s.env.freeChar] } }) ∧
    (s.env.input = [] → s.env.inputOpen = false →
      exec .inChar s = .next { s with
        regs := s.regs.set 7 s.pc, busy := some .inChar,
        env := { s.env with output := s.env.output ++ s.cfg.inPrompt } })

/-- R106: HALT writes the notice (a parameter, empty by default: the spec's decision D11) and stops the engine in
HALTED. -/
def Obligations.HaltResult : Prop :=
  ∀ s : State, exec .halt s = .next { s with
    regs := s.regs.set 7 s.pc, run := .halted,
    env := { s.env with output := s.env.output ++ s.cfg.haltNotice } }

/-- R103, R105: PUTS and PUTSP do exactly what the spec's unbounded loop does from the address in R0, after the
linkage: one step runs the whole loop and ends in the state the loop ends in, whenever the loop ends, however long it
is; and it ends with no cycle open only then. The same for a step that goes on with a walk. With INPUT closed, or a
failing poll named, every walk ends. (Reads through MemRead, the wrap and PUTSP's zero low byte are the spec's decisions
D8, D12, D15; the open cycle of a walk that never ends is the model's choice, log 8.) -/
def Obligations.StringTrapsRunTheLoopAndEnd : Prop :=
  ∀ s : State, s.busy = none →
    (∀ u, (exec .puts s = .next u ∧ u.busy = none) ↔
      StringLoop putsBytes (s.reg 0) { s with regs := s.regs.set 7 s.pc } u) ∧
    (∀ u, (exec .putsp s = .next u ∧ u.busy = none) ↔
      StringLoop putspBytes (s.reg 0) { s with regs := s.regs.set 7 s.pc } u) ∧
    (s.run = .running → ∀ a u,
      ((step { s with busy := some (.puts a) } = .next u ∧ u.busy = none) ↔ StringLoop putsBytes a s u) ∧
      ((step { s with busy := some (.putsp a) } = .next u ∧ u.busy = none) ↔ StringLoop putspBytes a s u)) ∧
    ((s.env.inputOpen = false ∨ false ∈ s.env.draws) →
      (∃ t, exec .puts s = .next t ∧ t.busy = none) ∧ (∃ t, exec .putsp s = .next t ∧ t.busy = none))

/-- R103, R105: a terminated string that does not cover the keyboard-status address is written whole in one step and
nothing else changes but R7, whatever INPUT is. That the string may run from address 0xFFFF on to 0x0000 is the spec's
decision D12 (log 16), that PUTSP writes a zero low byte its decision D15 (log 19). A string that covers the
keyboard-status address polls there: `StringTrapsRunTheLoopAndEnd` speaks of every string. -/
def Obligations.StringTrapsWriteTheString : Prop :=
  ∀ (s : State) (ws : List Word), ws.length < 65536 → HoldsString s (s.reg 0) ws →
    exec .puts s = .next { s with
      regs := s.regs.set 7 s.pc, env := { s.env with output := s.env.output ++ ws.flatMap putsBytes } } ∧
    exec .putsp s = .next { s with
      regs := s.regs.set 7 s.pc, env := { s.env with output := s.env.output ++ ws.flatMap putspBytes } }

/-- R107: TRAP with a vector outside 0x20..0x25 writes R7 and stops the engine in FATAL, with the vector, ir and pc in
the payload (the choice of FATAL, of R7 first and of the payload are the spec's decisions D13, D16). -/
def Obligations.UnknownVectorIsFatalAfterTheLinkage : Prop :=
  ∀ s : State,
    (∀ vec, ¬ knownVector vec → exec (decodeTrap vec) s = .next { s with
      regs := s.regs.set 7 s.pc, run := .fatal (.unknownTrapVector vec s.ir s.pc) }) ∧
    (∀ v, exec (.trapUnknown80 v) s = .next { s with
      regs := s.regs.set 7 s.pc, run := .fatal (.unknownTrapVector (0b1#1 ++ v) s.ir s.pc) }) ∧
    (∀ v, exec (.trapUnknown40 v) s = .next { s with
      regs := s.regs.set 7 s.pc, run := .fatal (.unknownTrapVector (0b01#2 ++ v) s.ir s.pc) }) ∧
    (∀ v, exec (.trapUnknown00 v) s = .next { s with
      regs := s.regs.set 7 s.pc, run := .fatal (.unknownTrapVector (0b000#3 ++ v) s.ir s.pc) }) ∧
    (∀ v, exec (.trapUnknown30 v) s = .next { s with
      regs := s.regs.set 7 s.pc, run := .fatal (.unknownTrapVector (0b0011#4 ++ v) s.ir s.pc) }) ∧
    (∀ v, exec (.trapUnknown28 v) s = .next { s with
      regs := s.regs.set 7 s.pc, run := .fatal (.unknownTrapVector (0b00101#5 ++ v) s.ir s.pc) }) ∧
    (∀ v, exec (.trapUnknown26 v) s = .next { s with
      regs := s.regs.set 7 s.pc, run := .fatal (.unknownTrapVector (0b0010011#7 ++ v) s.ir s.pc) })

/-! ### The undefined opcodes -/

/-- R116, R117: RES and RTI stop the engine in FATAL and change nothing else (the payload is the spec's decision
D16). -/
def Obligations.UndefinedOpcodesAreFatal : Prop :=
  ∀ s : State,
    exec .res s = .next { s with run := .fatal (.unimplementedOpcode 0b1101#4 s.ir s.pc) } ∧
    exec .rti s = .next { s with run := .fatal (.unimplementedOpcode 0b1000#4 s.ir s.pc) }

/-! ### The whole machine -/

/-- R18: the engine starts RUNNING; a step goes from RUNNING only, to HALTED only and always by the HALT trap, to FATAL
only and always by RES, RTI or a trap vector outside 0x20..0x25 (the last by the spec's decision D13); from HALTED and
FATAL no step leads anywhere. A step that goes on with an open cycle stays RUNNING (log 7, log 8). -/
def Obligations.EngineLeavesRunningOnlyByHaltOrFatal : Prop :=
  State.reset.run = .running ∧
  ∀ s t : State, step s = .next t →
    s.run = .running ∧
    (s.busy ≠ none → t.run = .running) ∧
    (s.busy = none →
      (t.run = .halted ↔ s.fetch.1.extractLsb' 12 4 = 0b1111#4 ∧ s.fetch.1.extractLsb' 0 8 = 0x25#8) ∧
      ((∃ cause, t.run = .fatal cause) ↔
        decode s.fetch.1 = .res ∨ decode s.fetch.1 = .rti ∨
          (s.fetch.1.extractLsb' 12 4 = 0b1111#4 ∧ ¬ knownVector (s.fetch.1.extractLsb' 0 8))))

/-- R121: the payload of FATAL is the faulting instruction's whole Word, the already incremented pc, and the vector cut
from that Word if it is a TRAP, else its opcode (the payload is the spec's decision D16); and a step arrives in FATAL
from a state with no cycle open only, `busy` being the model's own (log 7, log 8). -/
def Obligations.FatalPayloadDescribesTheFaultingWord : Prop :=
  ∀ (s t : State) (cause : FatalCause), step s = .next t → t.run = .fatal cause →
    s.busy = none ∧ t.ir = s.fetch.1 ∧ t.pc = s.pc + 1 ∧
    cause =
      if s.fetch.1.extractLsb' 12 4 = 0b1111#4 then
        .unknownTrapVector (s.fetch.1.extractLsb' 0 8) s.fetch.1 (s.pc + 1)
      else .unimplementedOpcode (s.fetch.1.extractLsb' 12 4) s.fetch.1 (s.pc + 1)

/-- R13: no instruction writes a register but the destination of the seven flag-setting ones, R7 in JSR, JSRR and TRAP,
and R0 in GETC and IN. -/
def Obligations.RegistersAreWrittenOnlyAsNamed : Prop :=
  ∀ (i : Instr) (s t : State) (r : Reg), exec i s = .next t → ¬ mayWrite i r → t.reg r = s.reg r

/-- R14, R84: no instruction but BR, JMP, JSR and JSRR changes pc beyond the increment of the cycle; and none writes
ir (R17). -/
def Obligations.OnlyControlTransfersWritePc : Prop :=
  ∀ (i : Instr) (s t : State), exec i s = .next t → (isControl i = false → t.pc = s.pc) ∧ t.ir = s.ir

/-- R31, R32: no instruction but ST, STI and STR changes a memory cell outside the two mapped addresses. -/
def Obligations.OnlyStoresChangeMemoryOutsideTheKeyboard : Prop :=
  ∀ (i : Instr) (s t : State) (b : Word), exec i s = .next t → isStore i = false →
    b ≠ s.cfg.kbsrAddr → b ≠ s.cfg.kbdrAddr → t.mem.read b = s.mem.read b

/-- R84, R100: after a step that fetched and executed JSR, JSRR or any TRAP from address a, R7 is a + 1 modulo 65536. -/
def Obligations.LinkageIsTheFollowingAddress : Prop :=
  ∀ s t : State, s.busy = none → step s = .next t → links (decode s.fetch.1) = true → t.reg 7 = s.pc + 1

/-- R131, R10: only the traps write OUTPUT, and a step only appends to OUTPUT and only takes characters from the front
of INPUT: what is left of INPUT after it is what `KbdGet` leaves after some number of characters. INPUT is the named
list and, with `inputOpen`, the free characters after it (the model's choice, log 5): the list loses a front part,
`inputOpen` stays, and a free character is taken only when the list is used up. -/
def Obligations.OutputOnlyGrowsAndInputOnlyShrinks : Prop :=
  (∀ (i : Instr) (s t : State), exec i s = .next t → mayOutput i = false → t.env.output = s.env.output) ∧
  (∀ s t : State, step s = .next t →
    s.env.output <+: t.env.output ∧
    (∃ n e, afterTaking n s.env = some e ∧ inputLeft t.env = inputLeft e) ∧
    t.env.input <:+ s.env.input ∧ t.env.inputOpen = s.env.inputOpen ∧ s.env.nuls ≤ t.env.nuls ∧
    (s.env.nuls = t.env.nuls → s.env.sinceNul ≤ t.env.sinceNul) ∧
    (t.env.nuls ≠ s.env.nuls ∨ t.env.sinceNul ≠ s.env.sinceNul → t.env.input = []))

/-- Every step keeps memory in its canonical form, and the parameters, so their being distinct, as they are (R5, R30;
the canonical form is the model's, log 9). -/
def Obligations.StepKeepsTheDataInvariant : Prop :=
  ∀ s t : State, s.Inv → step s = .next t → t.Inv ∧ t.cfg = s.cfg

/-- The state after reset meets the invariant (the default addresses are R5's). -/
def Obligations.ResetMeetsTheDataInvariant : Prop := State.reset.Inv

/-- R23: after reset pc is ORIGIN, the engine is RUNNING, memory is MEM_INIT, the registers, cond and ir are the
parameters, OUTPUT is empty and INPUT is the run's; by default ORIGIN is 0x3000 and memory zero (the default values
of the registers, cond, ir and INPUT are the model's choice, log 2, 3, 4, 5, and nothing is said of them here). INPUT
stands as the named list, whether free characters follow, and none of them taken (the model's form, log 5); that no
cycle is open, `busy` empty, is the model's own (log 7, log 8). -/
def Obligations.ResetStateIsAsParametersSay : Prop :=
  (∀ b : Boot, (State.resetWith b).pc = b.origin ∧ (State.resetWith b).run = .running ∧
    (State.resetWith b).busy = none ∧
    (∀ a, (State.resetWith b).mem.read a = b.memInit.read a) ∧ (∀ r, (State.resetWith b).reg r = b.gprReset[r]) ∧
    (State.resetWith b).cond = b.condReset ∧ (State.resetWith b).ir = b.irReset ∧
    (State.resetWith b).env.output = [] ∧ inputLeft (State.resetWith b).env = (b.input, b.inputOpen, 0, 0) ∧
    (State.resetWith b).cfg = b.cfg) ∧
  State.reset.pc = 0x3000#16 ∧ State.reset.run = .running ∧ (∀ a, State.reset.mem.read a = 0#16) ∧
  State.reset.env.output = []

/-- R35: a step of a whole cycle that neither fetches from the keyboard-status address nor executes an instruction that may read the
keyboard does the same whatever the input side of the environment is, and leaves that side alone. -/
def Obligations.StepIgnoresInputUnlessItReadsTheKeyboard : Prop :=
  ∀ (s : State) (e : Env), s.run = .running → s.busy = none → s.pc ≠ s.cfg.kbsrAddr →
    ¬ mayReadKeyboard (decode (s.mem.read s.pc)) { s with ir := s.mem.read s.pc, pc := s.pc + 1 } →
    ∃ t, step s = .next t ∧ step (withInputSide s e) = .next (withInputSide t e) ∧
      t = withInputSide t s.env

/-- R101, R104, R108: GETC and IN, waiting, take the character and do what is left of them, and write R7, pc and the
flags no more; with INPUT empty for ever the state stays as it is and the cycle is never over. (A waiting cycle as a
state: the model's choice, log 7; the free character: log 5; zero extension: the spec's decision D9.) -/
def Obligations.WaitingTrapGoesOnWhenACharacterComes : Prop :=
  ∀ s : State, s.run = .running →
    (s.busy = some .getc →
      (∀ c e, s.env.kbdGet = some (c, e) →
        step s = .next { s with busy := none, regs := s.regs.set 0 (c.setWidth 16), env := e }) ∧
      (s.env.input = [] → s.env.inputOpen = false → step s = .next s)) ∧
    (s.busy = some .inChar →
      (∀ c e, s.env.kbdGet = some (c, e) →
        step s = .next { s with
          busy := none, regs := s.regs.set 0 (c.setWidth 16), env := { e with output := s.env.output ++ [c] } }) ∧
      (s.env.input = [] → s.env.inputOpen = false → step s = .next s))

/-- R121, R127: no instruction, in any state, raises anything but FATAL, which is a state: every instruction and every
step in RUNNING answers a next state, and only a trap that waits or walks for ever leaves its cycle open (log 7,
log 8). -/
def Obligations.RunningMachineAlwaysAnswersNext : Prop :=
  (∀ (i : Instr) (s : State), ∃ t, exec i s = .next t ∧
    (t.busy = s.busy ∨ readsChar i ∨ i = .puts ∨ i = .putsp ∨ i = .trap 0x22#8 ∨ i = .trap 0x24#8)) ∧
  (∀ s : State, s.run = .running → ∃ t, step s = .next t)

/-- R12, R19, R142: a step is one whole instruction cycle, or belongs to a cycle that is never over: from a state that a
step left with a cycle open, no step closes it, and the machine stays RUNNING, with its registers, pc, flag and ir as
they are (the state of a cycle that is never over is the model's own, log 7, log 8). -/
def Obligations.OpenCycleIsNeverOver : Prop :=
  ∀ (s t : State) (k : Nat), s.busy = none → step s = .next t → t.busy ≠ none →
    ∃ u : State, Sys2Proof.core.run k t = .next u ∧ u.busy ≠ none ∧ u.run = .running ∧ u.regs = t.regs ∧ u.pc = t.pc ∧
      u.cond = t.cond ∧ u.ir = t.ir
end

