-- ==== Sys2Proof/Laws/Memory.lean ====
section
/-! SUPPORT. What the memory operations do: a read after a write, and the canonical form. The reading laws hold of
every list, in canonical form or not. -/

namespace Sys2Proof.Machine.Memory

theorem read_erase_same (m : Memory) (a : Word) : (m.erase a).read a = 0#16 := by
  induction m with
  | nil => rfl
  | cons c m ih =>
    by_cases h : c.1 = a.toNat
    · simpa [erase, h] using ih
    · simpa [erase, read, h] using ih

theorem read_erase_other (m : Memory) {a b : Word} (h : b ≠ a) : (m.erase a).read b = m.read b := by
  have hn : a.toNat ≠ b.toNat := fun e => h (BitVec.eq_of_toNat_eq e.symm)
  induction m with
  | nil => rfl
  | cons c m ih =>
    by_cases hc : c.1 = a.toNat
    · simpa [erase, read, hc, hn] using ih
    · by_cases hb : c.1 = b.toNat
      · obtain ⟨k, w⟩ := c
        simp only at hb hc
        subst hb
        simp [erase, read, hc]
      · simpa [erase, read, hc, hb] using ih

theorem read_insert_same (m : Memory) (a v : Word) : (m.insert a v).read a = v := by
  induction m with
  | nil => simp [insert, read]
  | cons c m ih =>
    obtain ⟨k, w⟩ := c
    simp only [insert]
    split
    · simp [read]
    · split
      · simp [read]
      · rename_i h
        have h' : ¬ k = a.toNat := fun e => h e.symm
        simpa [read, h'] using ih

theorem read_insert_other (m : Memory) {a b : Word} (v : Word) (h : b ≠ a) : (m.insert a v).read b = m.read b := by
  have hn : a.toNat ≠ b.toNat := fun e => h (BitVec.eq_of_toNat_eq e.symm)
  induction m with
  | nil => simp [insert, read, hn]
  | cons c m ih =>
    obtain ⟨k, w⟩ := c
    simp only [insert]
    split
    · simp [read, hn]
    · split
      · rename_i hk
        simp [read, hn, hk.symm]
      · simp [read, ih]

/-- The Word just written is the Word read. -/
@[simp] theorem read_write_same (m : Memory) (a v : Word) : (m.write a v).read a = v := by
  by_cases h : v = 0#16
  · simp [write, h, read_erase_same]
  · simp [write, h, read_insert_same]

/-- A write leaves every other address alone. -/
theorem read_write_other (m : Memory) {a b : Word} (v : Word) (h : b ≠ a) : (m.write a v).read b = m.read b := by
  by_cases hv : v = 0#16
  · simp [write, hv, read_erase_other m h]
  · simp [write, hv, read_insert_other m v h]

theorem read_write (m : Memory) (a b v : Word) : (m.write a v).read b = if b = a then v else m.read b := by
  by_cases h : b = a
  · simp [h]
  · simp [h, read_write_other m v h]

/-- The canonical form, as a proposition. -/
theorem wf_iff (m : Memory) :
    m.wf = true ↔ (m.Pairwise fun c d => c.1 < d.1) ∧ ∀ c ∈ m, c.1 < 65536 ∧ c.2 ≠ 0#16 := by
  simp [wf]

theorem wf_nil : Memory.wf [] = true := by decide

theorem wf_erase {m : Memory} (a : Word) (h : m.wf = true) : (m.erase a).wf = true := by
  rw [wf_iff] at h ⊢
  exact ⟨h.1.sublist List.filter_sublist, fun c hc => h.2 c (List.mem_of_mem_filter hc)⟩

theorem mem_insert {m : Memory} {a v : Word} {c : Nat × Word} (h : c ∈ m.insert a v) : c = (a.toNat, v) ∨ c ∈ m := by
  induction m with
  | nil => simpa [insert] using h
  | cons d m ih =>
    obtain ⟨k, w⟩ := d
    simp only [insert] at h
    split at h
    · simpa using h
    · split at h
      · rcases List.mem_cons.1 h with h | h
        · exact .inl h
        · exact .inr (List.mem_cons_of_mem _ h)
      · rcases List.mem_cons.1 h with h | h
        · exact .inr (by simp [h])
        · rcases ih h with h | h
          · exact .inl h
          · exact .inr (List.mem_cons_of_mem _ h)

theorem pairwise_insert {m : Memory} (a v : Word) (h : m.Pairwise fun c d => c.1 < d.1) :
    (m.insert a v).Pairwise fun c d => c.1 < d.1 := by
  induction m with
  | nil => simp [insert]
  | cons d m ih =>
    obtain ⟨k, w⟩ := d
    obtain ⟨hk, hm⟩ := List.pairwise_cons.1 h
    simp only [insert]
    split
    · rename_i hlt
      refine List.pairwise_cons.2 ⟨fun c hc => ?_, h⟩
      rcases List.mem_cons.1 hc with rfl | hc
      · exact hlt
      · exact Nat.lt_trans hlt (hk c hc)
    · split
      · rename_i heq
        exact List.pairwise_cons.2 ⟨fun c hc => heq ▸ hk c hc, hm⟩
      · refine List.pairwise_cons.2 ⟨fun c hc => ?_, ih hm⟩
        rcases mem_insert hc with rfl | hc
        · simp only; omega
        · exact hk c hc

/-- A write keeps the canonical form. -/
theorem wf_write {m : Memory} (a v : Word) (h : m.wf = true) : (m.write a v).wf = true := by
  by_cases hv : v = 0#16
  · simpa [write, hv] using wf_erase a h
  · simp only [write, hv, if_false]
    rw [wf_iff] at h ⊢
    refine ⟨pairwise_insert a v h.1, fun c hc => ?_⟩
    rcases mem_insert hc with rfl | hc
    · exact ⟨a.isLt, hv⟩
    · exact h.2 c hc

/-- Canonical memories that read alike are the same list. -/
theorem ext_of_wf {m m' : Memory} (h : m.wf = true) (h' : m'.wf = true) (hr : ∀ a, m.read a = m'.read a) : m = m' := by
  have hit : ∀ {m : Memory}, m.wf = true → ∀ c ∈ m, m.read (BitVec.ofNat 16 c.1) = c.2 := by
    intro m hm c hc
    rw [wf_iff] at hm
    have hcl := (hm.2 c hc).1
    induction m with
    | nil => cases hc
    | cons d m ih =>
      obtain ⟨hd, hp⟩ := List.pairwise_cons.1 hm.1
      rcases List.mem_cons.1 hc with rfl | hc
      · simp [read, Nat.mod_eq_of_lt hcl]
      · have := hd c hc
        have hne : d.1 ≠ c.1 := by omega
        simpa [read, Nat.mod_eq_of_lt hcl, hne] using ih ⟨hp, fun e he => hm.2 e (List.mem_cons_of_mem _ he)⟩ hc
  have miss : ∀ {m : Memory} {a : Word}, m.read a ≠ 0#16 → (a.toNat, m.read a) ∈ m := by
    intro m a hne
    induction m with
    | nil => exact absurd rfl hne
    | cons d m ih =>
      obtain ⟨k, w⟩ := d
      simp only [read] at hne ⊢
      split
      · rename_i e; simp [e]
      · rename_i e; simp only [e, if_false] at hne; exact List.mem_cons_of_mem _ (ih hne)
  have sub : ∀ {m m' : Memory}, m.wf = true → (∀ a, m.read a = m'.read a) → ∀ c ∈ m, c ∈ m' := by
    intro m m' hm hr c hc
    have hv := hit hm c hc
    have hb := (wf_iff m).1 hm |>.2 c hc
    have hne : m'.read (BitVec.ofNat 16 c.1) ≠ 0#16 := by rw [← hr, hv]; exact hb.2
    have := miss hne
    rw [← hr, hv] at this
    simpa [Nat.mod_eq_of_lt hb.1] using this
  have hp := ((wf_iff m).1 h).1
  have hp' := ((wf_iff m').1 h').1
  have nd : ∀ {m : Memory}, (m.Pairwise fun c d => c.1 < d.1) → m.Nodup := fun hp =>
    hp.imp fun hlt e => by subst e; exact absurd hlt (Nat.lt_irrefl _)
  have perm : m.Perm m' := (List.perm_ext_iff_of_nodup (nd hp) (nd hp')).2 fun c =>
    ⟨sub h hr c, sub h' (fun a => (hr a).symm) c⟩
  exact perm.eq_of_pairwise (fun _ _ _ _ hab hba => absurd hab (Nat.lt_asymm hba)) hp hp'

end Sys2Proof.Machine.Memory
end

