-- ==== Sys2Proof/Laws/State.lean ====
section
/-! SUPPORT. One lemma per field per update of the state, so that no later proof unfolds a record update. -/

namespace Sys2Proof.Machine

namespace State

variable (s : State)

/-! The register file. -/

@[simp] theorem reg_setReg_same (r : Reg) (v : Word) : (s.setReg r v).reg r = v := by
  show (s.regs.set r v)[r.val] = v; simp

theorem reg_setReg_other (r q : Reg) (v : Word) (h : q ≠ r) : (s.setReg r v).reg q = s.reg q := by
  have h' : r.val ≠ q.val := fun e => h (Fin.ext e.symm)
  show (s.regs.set r v)[q.val] = s.regs[q.val]; rw [Vector.getElem_set_ne _ _ h']

theorem reg_setReg (r q : Reg) (v : Word) : (s.setReg r v).reg q = if q = r then v else s.reg q := by
  by_cases h : q = r
  · subst h; simp
  · simp [h, reg_setReg_other]

/-- Two register files that read alike at every number are the same. -/
theorem regs_ext {s t : State} (h : ∀ r, s.reg r = t.reg r) : s.regs = t.regs :=
  Vector.ext fun i hi => h ⟨i, hi⟩

/-- A register of a state written out field by field. -/
@[simp] theorem reg_mk (regs : Vector Word 8) (pc : Word) (cond : Cond) (ir : Word) (run : Run) (busy : Option Busy)
    (mem : Memory) (env : Env) (cfg : Config) (r : Reg) : reg ⟨regs, pc, cond, ir, run, busy, mem, env, cfg⟩ r = regs[r.val] := rfl

@[simp] theorem getElem_regs (r : Reg) : s.regs[r.val] = s.reg r := rfl

/-! `setReg`. -/

@[simp] theorem pc_setReg (r : Reg) (v : Word) : (s.setReg r v).pc = s.pc := rfl
@[simp] theorem cond_setReg (r : Reg) (v : Word) : (s.setReg r v).cond = s.cond := rfl
@[simp] theorem ir_setReg (r : Reg) (v : Word) : (s.setReg r v).ir = s.ir := rfl
@[simp] theorem run_setReg (r : Reg) (v : Word) : (s.setReg r v).run = s.run := rfl
@[simp] theorem busy_setReg (r : Reg) (v : Word) : (s.setReg r v).busy = s.busy := rfl
@[simp] theorem mem_setReg (r : Reg) (v : Word) : (s.setReg r v).mem = s.mem := rfl
@[simp] theorem env_setReg (r : Reg) (v : Word) : (s.setReg r v).env = s.env := rfl
@[simp] theorem cfg_setReg (r : Reg) (v : Word) : (s.setReg r v).cfg = s.cfg := rfl

/-! `setcc`. -/

@[simp] theorem reg_setcc (v : Word) (q : Reg) : (s.setcc v).reg q = s.reg q := rfl
@[simp] theorem regs_setcc (v : Word) : (s.setcc v).regs = s.regs := rfl
@[simp] theorem pc_setcc (v : Word) : (s.setcc v).pc = s.pc := rfl
@[simp] theorem cond_setcc (v : Word) : (s.setcc v).cond = condOf v := rfl
@[simp] theorem ir_setcc (v : Word) : (s.setcc v).ir = s.ir := rfl
@[simp] theorem run_setcc (v : Word) : (s.setcc v).run = s.run := rfl
@[simp] theorem busy_setcc (v : Word) : (s.setcc v).busy = s.busy := rfl
@[simp] theorem mem_setcc (v : Word) : (s.setcc v).mem = s.mem := rfl
@[simp] theorem env_setcc (v : Word) : (s.setcc v).env = s.env := rfl
@[simp] theorem cfg_setcc (v : Word) : (s.setcc v).cfg = s.cfg := rfl

/-! `writeResult`. -/

@[simp] theorem pc_writeResult (r : Reg) (v : Word) : (s.writeResult r v).pc = s.pc := rfl
@[simp] theorem cond_writeResult (r : Reg) (v : Word) : (s.writeResult r v).cond = condOf v := rfl
@[simp] theorem ir_writeResult (r : Reg) (v : Word) : (s.writeResult r v).ir = s.ir := rfl
@[simp] theorem run_writeResult (r : Reg) (v : Word) : (s.writeResult r v).run = s.run := rfl
@[simp] theorem busy_writeResult (r : Reg) (v : Word) : (s.writeResult r v).busy = s.busy := rfl
@[simp] theorem mem_writeResult (r : Reg) (v : Word) : (s.writeResult r v).mem = s.mem := rfl
@[simp] theorem env_writeResult (r : Reg) (v : Word) : (s.writeResult r v).env = s.env := rfl
@[simp] theorem cfg_writeResult (r : Reg) (v : Word) : (s.writeResult r v).cfg = s.cfg := rfl
@[simp] theorem reg_writeResult_same (r : Reg) (v : Word) : (s.writeResult r v).reg r = v := by simp [writeResult]
theorem reg_writeResult (r q : Reg) (v : Word) :
    (s.writeResult r v).reg q = if q = r then v else s.reg q := by simp [writeResult, reg_setReg]

/-! `memWrite`. -/

@[simp] theorem reg_memWrite (a v : Word) (q : Reg) : (s.memWrite a v).reg q = s.reg q := rfl
@[simp] theorem regs_memWrite (a v : Word) : (s.memWrite a v).regs = s.regs := rfl
@[simp] theorem pc_memWrite (a v : Word) : (s.memWrite a v).pc = s.pc := rfl
@[simp] theorem cond_memWrite (a v : Word) : (s.memWrite a v).cond = s.cond := rfl
@[simp] theorem ir_memWrite (a v : Word) : (s.memWrite a v).ir = s.ir := rfl
@[simp] theorem run_memWrite (a v : Word) : (s.memWrite a v).run = s.run := rfl
@[simp] theorem busy_memWrite (a v : Word) : (s.memWrite a v).busy = s.busy := rfl
@[simp] theorem mem_memWrite (a v : Word) : (s.memWrite a v).mem = s.mem.write a v := rfl
@[simp] theorem env_memWrite (a v : Word) : (s.memWrite a v).env = s.env := rfl
@[simp] theorem cfg_memWrite (a v : Word) : (s.memWrite a v).cfg = s.cfg := rfl

/-! `conOut`. -/

@[simp] theorem reg_conOut (bs : List Byte) (q : Reg) : (s.conOut bs).reg q = s.reg q := rfl
@[simp] theorem regs_conOut (bs : List Byte) : (s.conOut bs).regs = s.regs := rfl
@[simp] theorem pc_conOut (bs : List Byte) : (s.conOut bs).pc = s.pc := rfl
@[simp] theorem cond_conOut (bs : List Byte) : (s.conOut bs).cond = s.cond := rfl
@[simp] theorem ir_conOut (bs : List Byte) : (s.conOut bs).ir = s.ir := rfl
@[simp] theorem run_conOut (bs : List Byte) : (s.conOut bs).run = s.run := rfl
@[simp] theorem busy_conOut (bs : List Byte) : (s.conOut bs).busy = s.busy := rfl
@[simp] theorem mem_conOut (bs : List Byte) : (s.conOut bs).mem = s.mem := rfl
@[simp] theorem cfg_conOut (bs : List Byte) : (s.conOut bs).cfg = s.cfg := rfl
@[simp] theorem output_conOut (bs : List Byte) : (s.conOut bs).env.output = s.env.output ++ bs := rfl
@[simp] theorem input_conOut (bs : List Byte) : (s.conOut bs).env.input = s.env.input := rfl
@[simp] theorem inputOpen_conOut (bs : List Byte) : (s.conOut bs).env.inputOpen = s.env.inputOpen := rfl
@[simp] theorem draws_conOut (bs : List Byte) : (s.conOut bs).env.draws = s.env.draws := rfl
@[simp] theorem fails_conOut (bs : List Byte) : (s.conOut bs).env.fails = s.env.fails := rfl
@[simp] theorem sinceFail_conOut (bs : List Byte) : (s.conOut bs).env.sinceFail = s.env.sinceFail := rfl
@[simp] theorem nuls_conOut (bs : List Byte) : (s.conOut bs).env.nuls = s.env.nuls := rfl
@[simp] theorem sinceNul_conOut (bs : List Byte) : (s.conOut bs).env.sinceNul = s.env.sinceNul := rfl
@[simp] theorem conOut_conOut (bs cs : List Byte) : (s.conOut bs).conOut cs = s.conOut (bs ++ cs) := by
  simp [conOut]

/-! `halt`. -/

@[simp] theorem reg_halt  (q : Reg) : (s.halt).reg q = s.reg q := rfl
@[simp] theorem regs_halt : (s.halt).regs = s.regs := rfl
@[simp] theorem pc_halt : (s.halt).pc = s.pc := rfl
@[simp] theorem cond_halt : (s.halt).cond = s.cond := rfl
@[simp] theorem ir_halt : (s.halt).ir = s.ir := rfl
@[simp] theorem run_halt : (s.halt).run = .halted := rfl
@[simp] theorem busy_halt : (s.halt).busy = s.busy := rfl
@[simp] theorem mem_halt : (s.halt).mem = s.mem := rfl
@[simp] theorem env_halt : (s.halt).env = s.env := rfl
@[simp] theorem cfg_halt : (s.halt).cfg = s.cfg := rfl

/-! `raiseFatal`. -/

@[simp] theorem reg_raiseFatal (c : FatalCause) (q : Reg) : (s.raiseFatal c).reg q = s.reg q := rfl
@[simp] theorem regs_raiseFatal (c : FatalCause) : (s.raiseFatal c).regs = s.regs := rfl
@[simp] theorem pc_raiseFatal (c : FatalCause) : (s.raiseFatal c).pc = s.pc := rfl
@[simp] theorem cond_raiseFatal (c : FatalCause) : (s.raiseFatal c).cond = s.cond := rfl
@[simp] theorem ir_raiseFatal (c : FatalCause) : (s.raiseFatal c).ir = s.ir := rfl
@[simp] theorem run_raiseFatal (c : FatalCause) : (s.raiseFatal c).run = .fatal c := rfl
@[simp] theorem busy_raiseFatal (c : FatalCause) : (s.raiseFatal c).busy = s.busy := rfl
@[simp] theorem mem_raiseFatal (c : FatalCause) : (s.raiseFatal c).mem = s.mem := rfl
@[simp] theorem env_raiseFatal (c : FatalCause) : (s.raiseFatal c).env = s.env := rfl
@[simp] theorem cfg_raiseFatal (c : FatalCause) : (s.raiseFatal c).cfg = s.cfg := rfl

/-! `trapEntry`. -/

@[simp] theorem pc_trapEntry : (s.trapEntry).pc = s.pc := rfl
@[simp] theorem cond_trapEntry : (s.trapEntry).cond = s.cond := rfl
@[simp] theorem ir_trapEntry : (s.trapEntry).ir = s.ir := rfl
@[simp] theorem run_trapEntry : (s.trapEntry).run = s.run := rfl
@[simp] theorem busy_trapEntry : (s.trapEntry).busy = s.busy := rfl
@[simp] theorem mem_trapEntry : (s.trapEntry).mem = s.mem := rfl
@[simp] theorem env_trapEntry : (s.trapEntry).env = s.env := rfl
@[simp] theorem cfg_trapEntry : (s.trapEntry).cfg = s.cfg := rfl
@[simp] theorem regs_trapEntry_seven : s.trapEntry.regs[7] = s.pc := by simp [trapEntry, setReg]
@[simp] theorem reg_trapEntry_seven : s.trapEntry.reg 7 = s.pc := by simp [trapEntry]
theorem reg_trapEntry (q : Reg) : s.trapEntry.reg q = if q = 7 then s.pc else s.reg q := by
  simp [trapEntry, reg_setReg]

end State

end Sys2Proof.Machine
end

