-- ==== Sys2Proof/Laws/Keyboard.lean ====
section
/-! SUPPORT. What the host primitives, a memory read and the fetch can do, said once. -/

namespace Sys2Proof.Machine

/-- Everything `KbdGet` can do when it answers: it takes the first named character, or, none being named and INPUT
still open, a free one; OUTPUT and the poll answers stay. -/
theorem Env.kbdGet_cases {e e' : Env} {c : Byte} (h : e.kbdGet = some (c, e')) :
    (∃ cs, e.input = c :: cs ∧ e' = { e with input := cs }) ∨
    (e.input = [] ∧ e.inputOpen = true ∧ c = e.freeChar ∧ e' = e.takeFree) := by
  unfold Env.kbdGet at h
  split at h
  · rename_i c' cs hi
    obtain ⟨rfl, rfl⟩ := by simpa using h
    exact .inl ⟨cs, hi, rfl⟩
  · rename_i hi
    split at h
    · rename_i ho
      obtain ⟨rfl, rfl⟩ := by simpa using h
      exact .inr ⟨hi, ho, rfl, rfl⟩
    · cases h

/-- `KbdGet` never returns exactly when INPUT is empty for ever. -/
theorem Env.kbdGet_eq_none {e : Env} : e.kbdGet = none ↔ e.input = [] ∧ e.inputOpen = false := by
  unfold Env.kbdGet
  split
  · rename_i hi; simp [hi]
  · rename_i hi; by_cases ho : e.inputOpen <;> simp [hi, ho]

@[simp] theorem Env.kbdGet_cons {e : Env} {c : Byte} {cs : List Byte} (h : e.input = c :: cs) :
    e.kbdGet = some (c, { e with input := cs }) := by simp [Env.kbdGet, h]

/-- What `KbdGet` keeps. -/
theorem Env.kbdGet_frame {e e' : Env} {c : Byte} (h : e.kbdGet = some (c, e')) :
    e'.output = e.output ∧ e'.inputOpen = e.inputOpen ∧ e'.draws = e.draws ∧ e'.input <:+ e.input := by
  obtain ⟨cs, hi, rfl⟩ | ⟨-, -, -, rfl⟩ := Env.kbdGet_cases h
  · simp [hi]
  · simp [Env.takeFree]

@[simp] theorem Env.draw_frame (e : Env) :
    e.draw.2.output = e.output ∧ e.draw.2.inputOpen = e.inputOpen ∧ e.draw.2.input = e.input := by
  unfold Env.draw; split <;> simp

/-- Everything `KbdPoll` can do: it answers `none` and consumes no character, or, the draw being made, it answers
what `KbdGet` would take. -/
theorem Env.kbdPoll_cases (e : Env) :
    (e.kbdPoll = (none, e.draw.2)) ∨
    (∃ c e', e.draw.1 = true ∧ e.draw.2.kbdGet = some (c, e') ∧ e.kbdPoll = (some c, e')) := by
  unfold Env.kbdPoll
  by_cases hd : e.draw.1
  · generalize hg : e.draw.2.kbdGet = g
    rcases g with _ | ⟨c, e'⟩
    · exact .inl (by simp [hd, hg])
    · exact .inr ⟨c, e', hd, rfl, by simp [hd, hg]⟩
  · exact .inl (by simp [hd])

/-- With INPUT closed, a poll answers `none` or takes the first named character. -/
theorem Env.kbdPoll_closed {e : Env} (ho : e.inputOpen = false) :
    e.kbdPoll.1 = none ∨ ∃ c, e.kbdPoll.1 = some c ∧ e.input = c :: e.kbdPoll.2.input := by
  obtain h | ⟨c, e', -, hg, h⟩ := e.kbdPoll_cases
  · exact .inl (by simp [h])
  · right
    obtain ⟨cs, hi, rfl⟩ | ⟨-, ho', -, -⟩ := Env.kbdGet_cases hg
    · exact ⟨c, by simp [h], by simpa [h] using hi⟩
    · simp [ho] at ho'

/-- What `KbdPoll` keeps. -/
theorem Env.kbdPoll_frame (e : Env) :
    e.kbdPoll.2.output = e.output ∧ e.kbdPoll.2.inputOpen = e.inputOpen ∧ e.kbdPoll.2.input <:+ e.input := by
  obtain ⟨h1, h2, h3⟩ := e.draw_frame
  obtain h | ⟨c, e', -, hg, h⟩ := e.kbdPoll_cases
  · rw [h]; exact ⟨h1, h2, h3 ▸ List.suffix_refl _⟩
  · obtain ⟨g1, g2, -, g4⟩ := Env.kbdGet_frame hg
    rw [h]; exact ⟨g1.trans h1, g2.trans h2, h3 ▸ g4⟩

/-- OUTPUT has no say in a poll. -/
theorem Env.kbdPoll_output (e : Env) (o : List Byte) :
    ({ e with output := o } : Env).kbdPoll = (e.kbdPoll.1, { e.kbdPoll.2 with output := o }) := by
  obtain ⟨input, inputOpen, draws, fails, sinceFail, nuls, sinceNul, output⟩ := e
  by_cases hd : Config.freeRun fails = some sinceFail <;> by_cases hn : Config.freeStretch nuls = some sinceNul <;>
    rcases draws with _ | ⟨_ | _, ds⟩ <;>
    rcases input with _ | ⟨c, cs⟩ <;> rcases inputOpen with _ | _ <;>
    simp [Env.kbdPoll, Env.draw, Env.kbdGet, Env.failNext, Env.freeChar, Env.takeFree, Env.nulNext, hd, hn]

/-- A poll that answers `none`, or takes a 0x00: what ends a walk over the keyboard registers. -/
def Env.stops (e : Env) : Prop := e.kbdPoll.1 = none ∨ e.kbdPoll.1 = some 0#8

/-- One of the next `n + 1` polls in a row stops a walk. -/
def Env.stopsWithin : Nat → Env → Prop
  | 0, e => e.stops
  | n + 1, e => e.stops ∨ e.kbdPoll.2.stopsWithin n

@[simp] theorem Env.stops_output (e : Env) (o : List Byte) : ({ e with output := o } : Env).stops ↔ e.stops := by
  simp [stops, kbdPoll_output]

@[simp] theorem Env.stopsWithin_output (n : Nat) (e : Env) (o : List Byte) :
    ({ e with output := o } : Env).stopsWithin n ↔ e.stopsWithin n := by
  induction n generalizing e with
  | zero => simp [stopsWithin]
  | succ n ih => simp [stopsWithin, kbdPoll_output, ih]

/-- Every draw to come succeeds. -/
structure Env.DrawsSucceed (e : Env) : Prop where
  draws : ∀ d ∈ e.draws, d = true
  run : ∀ k, Config.freeRun e.fails = some k → k < e.sinceFail

/-- INPUT goes on for ever without a 0x00. -/
structure Env.CharsGoOn (e : Env) : Prop where
  input : ∀ c ∈ e.input, c ≠ 0#8
  isOpen : e.inputOpen = true
  stretch : ∀ k, Config.freeStretch e.nuls = some k → k < e.sinceNul

/-- Every poll to come takes a character other than 0x00. -/
structure Env.NeverStops (e : Env) : Prop where
  draws : e.DrawsSucceed
  chars : e.CharsGoOn

theorem Env.NeverStops.conOut {e : Env} (h : e.NeverStops) (o : List Byte) :
    ({ e with output := o } : Env).NeverStops := ⟨⟨h.1.1, h.1.2⟩, ⟨h.2.1, h.2.2, h.2.3⟩⟩

/-- A free character inside its stretch is not 0x00. -/
theorem Env.freeChar_ne {e : Env} : e.freeChar ≠ 0#8 ↔ e.nulNext = false := by
  have := (Config.freeChar e.nuls e.sinceNul).isLt
  by_cases h : e.nulNext
  · simp [freeChar, h]
  · simp only [freeChar, h, Bool.false_eq_true, if_false, iff_true]
    intro hc
    have := congrArg BitVec.toNat hc
    simp at this
    omega

/-- What a draw does in an environment whose draws succeed. -/
theorem Env.DrawsSucceed.draw {e : Env} (h : e.DrawsSucceed) : e.draw.1 = true ∧ e.draw.2.DrawsSucceed := by
  obtain ⟨h1, h4⟩ := h
  unfold Env.draw
  split
  · rename_i d ds hd
    simp only [hd, List.mem_cons, forall_eq_or_imp] at h1
    exact ⟨h1.1, h1.2, h4⟩
  · have hf : e.failNext = false := by
      simp only [failNext, decide_eq_false_iff_not]
      exact fun hk => absurd (h4 _ hk) (lt_irrefl _)
    rename_i hd
    refine ⟨by simp [hf], by simp [hd], fun k hk => ?_⟩
    simp only [hf] at hk ⊢
    exact Nat.lt_succ_of_lt (h4 k hk)

/-- What taking a character does in an environment whose INPUT goes on without a 0x00. -/
theorem Env.CharsGoOn.kbdGet {e : Env} (h : e.CharsGoOn) :
    ∃ c e', e.kbdGet = some (c, e') ∧ c ≠ 0#8 ∧ e'.CharsGoOn := by
  obtain ⟨h2, h3, h5⟩ := h
  unfold Env.kbdGet
  split
  · rename_i c cs hi
    simp only [hi, List.mem_cons, forall_eq_or_imp] at h2
    exact ⟨c, _, rfl, h2.1, h2.2, h3, h5⟩
  · have hn : e.nulNext = false := by
      simp only [nulNext, decide_eq_false_iff_not]
      exact fun hk => absurd (h5 _ hk) (lt_irrefl _)
    refine ⟨_, _, if_pos h3, freeChar_ne.2 hn, h2, h3, fun k hk => ?_⟩
    simp only [takeFree, hn] at hk ⊢
    exact Nat.lt_succ_of_lt (h5 k hk)

/-- A draw has no say in INPUT. -/
theorem Env.charsGoOn_draw (e : Env) : e.draw.2.CharsGoOn ↔ e.CharsGoOn := by
  unfold Env.draw
  split <;> exact ⟨fun ⟨a, b, c⟩ => ⟨a, b, c⟩, fun ⟨a, b, c⟩ => ⟨a, b, c⟩⟩

/-- Taking a character has no say in the draws. -/
theorem Env.drawsSucceed_kbdGet {e e' : Env} {c : Byte} (h : e.kbdGet = some (c, e')) :
    e'.DrawsSucceed ↔ e.DrawsSucceed := by
  obtain ⟨cs, -, rfl⟩ | ⟨-, -, -, rfl⟩ := Env.kbdGet_cases h <;>
    exact ⟨fun ⟨a, b⟩ => ⟨a, b⟩, fun ⟨a, b⟩ => ⟨a, b⟩⟩

/-- What a poll does in an environment whose polls never stop a walk. -/
theorem Env.NeverStops.kbdPoll {e : Env} (h : e.NeverStops) :
    ∃ c, e.kbdPoll.1 = some c ∧ c ≠ 0#8 ∧ e.kbdPoll.2.NeverStops := by
  obtain ⟨hd, h'⟩ := h.draws.draw
  obtain ⟨c, e', hg, hc, he⟩ := (e.charsGoOn_draw.2 h.chars).kbdGet
  exact ⟨c, by simp [Env.kbdPoll, hd, hg], hc,
    by simpa [Env.kbdPoll, hd, hg] using ⟨(Env.drawsSucceed_kbdGet hg).2 h', he⟩⟩

namespace State

variable (s : State)

@[simp] theorem regs_pollKeyboard : s.pollKeyboard.regs = s.regs := by unfold pollKeyboard; split <;> rfl
@[simp] theorem pc_pollKeyboard : s.pollKeyboard.pc = s.pc := by unfold pollKeyboard; split <;> rfl
@[simp] theorem cond_pollKeyboard : s.pollKeyboard.cond = s.cond := by unfold pollKeyboard; split <;> rfl
@[simp] theorem ir_pollKeyboard : s.pollKeyboard.ir = s.ir := by unfold pollKeyboard; split <;> rfl
@[simp] theorem run_pollKeyboard : s.pollKeyboard.run = s.run := by unfold pollKeyboard; split <;> rfl
@[simp] theorem busy_pollKeyboard : s.pollKeyboard.busy = s.busy := by unfold pollKeyboard; split <;> rfl
@[simp] theorem cfg_pollKeyboard : s.pollKeyboard.cfg = s.cfg := by unfold pollKeyboard; split <;> rfl
@[simp] theorem env_pollKeyboard : s.pollKeyboard.env = s.env.kbdPoll.2 := by
  unfold pollKeyboard; split <;> rename_i h <;> simp [h]

/-- A poll that answers `none` clears the status cell and nothing else (R31). -/
theorem pollKeyboard_none {s : State} (h : s.env.kbdPoll.1 = none) :
    s.pollKeyboard = { s with mem := s.mem.write s.cfg.kbsrAddr 0#16, env := s.env.kbdPoll.2 } := by
  unfold pollKeyboard
  split <;> simp_all

/-- A poll that takes a character writes both mapped cells (R31). -/
theorem pollKeyboard_some {s : State} {c : Byte} (h : s.env.kbdPoll.1 = some c) :
    s.pollKeyboard =
      { s with mem := (s.mem.write s.cfg.kbsrAddr 0x8000#16).write s.cfg.kbdrAddr (zext c), env := s.env.kbdPoll.2 } := by
  unfold pollKeyboard
  split <;> simp_all

/-- A poll writes the two mapped cells and no other. -/
theorem read_pollKeyboard_other {b : Word} (h : b ≠ s.cfg.kbsrAddr) (h' : b ≠ s.cfg.kbdrAddr) :
    s.pollKeyboard.mem.read b = s.mem.read b := by
  unfold pollKeyboard
  split <;> simp [Memory.read_write_other, h, h']

theorem wf_pollKeyboard (h : s.mem.wf = true) : s.pollKeyboard.mem.wf = true := by
  unfold pollKeyboard
  split <;> simp [Memory.wf_write, h]

/-- A read anywhere but at the keyboard-status register returns the stored Word and changes nothing (R31, R38). -/
theorem memRead_plain {a : Word} (h : a ≠ s.cfg.kbsrAddr) : s.memRead a = (s.mem.read a, s) := by
  simp [memRead, h]

/-- A read of the keyboard-status register polls, then returns the stored Word (R31). -/
theorem memRead_status : s.memRead s.cfg.kbsrAddr = (s.pollKeyboard.mem.read s.cfg.kbsrAddr, s.pollKeyboard) := by
  simp [memRead]

/-- What a read leaves: the state itself, or the state after a poll. -/
theorem memRead_cases (a : Word) :
    (a ≠ s.cfg.kbsrAddr ∧ (s.memRead a).2 = s) ∨ (a = s.cfg.kbsrAddr ∧ (s.memRead a).2 = s.pollKeyboard) := by
  by_cases h : a = s.cfg.kbsrAddr
  · exact .inr ⟨h, by simp [memRead, h]⟩
  · exact .inl ⟨h, by simp [memRead, h]⟩

theorem memRead_fst (a : Word) : (s.memRead a).1 = (s.memRead a).2.mem.read a := rfl

@[simp] theorem regs_memRead (a : Word) : (s.memRead a).2.regs = s.regs := by
  obtain ⟨-, h⟩ | ⟨-, h⟩ := s.memRead_cases a <;> simp [h]
@[simp] theorem reg_memRead (a : Word) (r : Reg) : (s.memRead a).2.reg r = s.reg r := by
  simp [← getElem_regs]
@[simp] theorem pc_memRead (a : Word) : (s.memRead a).2.pc = s.pc := by
  obtain ⟨-, h⟩ | ⟨-, h⟩ := s.memRead_cases a <;> simp [h]
@[simp] theorem cond_memRead (a : Word) : (s.memRead a).2.cond = s.cond := by
  obtain ⟨-, h⟩ | ⟨-, h⟩ := s.memRead_cases a <;> simp [h]
@[simp] theorem ir_memRead (a : Word) : (s.memRead a).2.ir = s.ir := by
  obtain ⟨-, h⟩ | ⟨-, h⟩ := s.memRead_cases a <;> simp [h]
@[simp] theorem run_memRead (a : Word) : (s.memRead a).2.run = s.run := by
  obtain ⟨-, h⟩ | ⟨-, h⟩ := s.memRead_cases a <;> simp [h]
@[simp] theorem busy_memRead (a : Word) : (s.memRead a).2.busy = s.busy := by
  obtain ⟨-, h⟩ | ⟨-, h⟩ := s.memRead_cases a <;> simp [h]
@[simp] theorem cfg_memRead (a : Word) : (s.memRead a).2.cfg = s.cfg := by
  obtain ⟨-, h⟩ | ⟨-, h⟩ := s.memRead_cases a <;> simp [h]
@[simp] theorem output_memRead (a : Word) : (s.memRead a).2.env.output = s.env.output := by
  obtain ⟨-, h⟩ | ⟨-, h⟩ := s.memRead_cases a <;> simp [h, Env.kbdPoll_frame]
@[simp] theorem inputOpen_memRead (a : Word) : (s.memRead a).2.env.inputOpen = s.env.inputOpen := by
  obtain ⟨-, h⟩ | ⟨-, h⟩ := s.memRead_cases a <;> simp [h, Env.kbdPoll_frame]

/-- A read consumes characters from the front of INPUT, if any. -/
theorem input_memRead (a : Word) : (s.memRead a).2.env.input <:+ s.env.input := by
  obtain ⟨-, h⟩ | ⟨-, h⟩ := s.memRead_cases a
  · simp [h]
  · rw [h, env_pollKeyboard]; exact s.env.kbdPoll_frame.2.2

/-- A read changes no cell but the two mapped ones. -/
theorem read_memRead_other (a : Word) {b : Word} (h : b ≠ s.cfg.kbsrAddr) (h' : b ≠ s.cfg.kbdrAddr) :
    (s.memRead a).2.mem.read b = s.mem.read b := by
  obtain ⟨-, e⟩ | ⟨-, e⟩ := s.memRead_cases a
  · rw [e]
  · rw [e, read_pollKeyboard_other s h h']

/-- A read keeps the canonical form of memory. -/
theorem wf_memRead (a : Word) (h : s.mem.wf = true) : (s.memRead a).2.mem.wf = true := by
  obtain ⟨-, e⟩ | ⟨-, e⟩ := s.memRead_cases a
  · rw [e]; exact h
  · rw [e]; exact s.wf_pollKeyboard h

/-- The Word of a character other than 0x00 is not zero. -/
theorem zext_ne {c : Byte} (h : c ≠ 0#8) : zext c ≠ 0#16 := fun e => h (by
  apply BitVec.eq_of_toNat_eq
  simpa [zext, Nat.mod_eq_of_lt (Nat.lt_trans c.isLt (by decide : 256 < 65536))] using congrArg BitVec.toNat e)

/-- A read where no poll stops a walk: no poll will, no cell becomes zero but the keyboard-status cell may, and that one
does not read as zero. -/
theorem memRead_neverStops {s : State} (h : s.env.NeverStops) (a : Word) :
    (s.memRead a).2.env.NeverStops ∧ (a = s.cfg.kbsrAddr → (s.memRead a).1 ≠ 0#16) ∧
      ∀ b, b ≠ s.cfg.kbsrAddr → s.mem.read b ≠ 0#16 → (s.memRead a).2.mem.read b ≠ 0#16 := by
  obtain ⟨c, hp, hc, he⟩ := h.kbdPoll
  obtain ⟨ha, hr⟩ | ⟨rfl, hr⟩ := s.memRead_cases a
  · rw [hr]; exact ⟨h, fun e => absurd e ha, fun b _ hb => hb⟩
  · rw [memRead_fst, hr, env_pollKeyboard, pollKeyboard_some hp]
    refine ⟨he, fun _ => ?_, fun b hb hz => ?_⟩ <;> simp only [Memory.read_write]
    · split
      · exact zext_ne hc
      · simp
    · rw [if_neg hb]
      split
      · exact zext_ne hc
      · exact hz

/-! The fetch: a read at the old pc, then `ir` and `pc`. -/

theorem fetch_fst : s.fetch.1 = (s.memRead s.pc).1 := rfl
@[simp] theorem regs_fetch : s.fetch.2.regs = s.regs := by simp [fetch]
@[simp] theorem reg_fetch (r : Reg) : s.fetch.2.reg r = s.reg r := by simp [← getElem_regs]
@[simp] theorem pc_fetch : s.fetch.2.pc = s.pc + 1 := by simp [fetch]
@[simp] theorem cond_fetch : s.fetch.2.cond = s.cond := by simp [fetch]
@[simp] theorem ir_fetch : s.fetch.2.ir = (s.memRead s.pc).1 := rfl
@[simp] theorem run_fetch : s.fetch.2.run = s.run := by simp [fetch]
@[simp] theorem busy_fetch : s.fetch.2.busy = s.busy := by simp [fetch]
@[simp] theorem cfg_fetch : s.fetch.2.cfg = s.cfg := by simp [fetch]
@[simp] theorem mem_fetch : s.fetch.2.mem = (s.memRead s.pc).2.mem := rfl
@[simp] theorem env_fetch : s.fetch.2.env = (s.memRead s.pc).2.env := rfl

/-- A fetch outside the keyboard-status register. -/
theorem fetch_plain (h : s.pc ≠ s.cfg.kbsrAddr) :
    s.fetch = (s.mem.read s.pc, { s with ir := s.mem.read s.pc, pc := s.pc + 1 }) := by
  simp [fetch, memRead_plain s h]

end State

end Sys2Proof.Machine
end

