-- ==== Sys2Proof/Laws/PerInstr.lean ====
section
/-! SUPPORT. The per-instruction family OpcodeField: the top four bits of an instruction's Word are its opcode. -/

namespace Sys2Proof

/-- The opcode number of an instruction, as the table of R51 lists it. -/
def opcodeOf : Instr → BitVec 4
  | .addReg _ _ _ => 0b0001#4
  | .addImm _ _ _ => 0b0001#4
  | .andReg _ _ _ => 0b0101#4
  | .andImm _ _ _ => 0b0101#4
  | .not _ _ => 0b1001#4
  | .br _ _ => 0b0000#4
  | .jmp _ => 0b1100#4
  | .jsr _ => 0b0100#4
  | .jsrr _ => 0b0100#4
  | .ld _ _ => 0b0010#4
  | .ldi _ _ => 0b1010#4
  | .ldr _ _ _ => 0b0110#4
  | .lea _ _ => 0b1110#4
  | .st _ _ => 0b0011#4
  | .sti _ _ => 0b1011#4
  | .str _ _ _ => 0b0111#4
  | .trap _ => 0b1111#4
  | .getc => 0b1111#4
  | .out => 0b1111#4
  | .puts => 0b1111#4
  | .inChar => 0b1111#4
  | .putsp => 0b1111#4
  | .halt => 0b1111#4
  | .trapUnknown80 _ => 0b1111#4
  | .trapUnknown40 _ => 0b1111#4
  | .trapUnknown00 _ => 0b1111#4
  | .trapUnknown30 _ => 0b1111#4
  | .trapUnknown28 _ => 0b1111#4
  | .trapUnknown26 _ => 0b1111#4
  | .rti => 0b1000#4
  | .res => 0b1101#4

/-- Bits 15..12 of a TRAP Word. -/
theorem opcode_trapWord (vec : BitVec 8) : (trapWord vec).extractLsb' 12 4 = 0b1111#4 := by
  refine BitVec.eq_of_getLsbD_eq fun i hi => ?_
  simp only [trapWord, BitVec.getLsbD_extractLsb', BitVec.getLsbD_append]
  interval_cases i <;> simp

namespace Laws.OpcodeField

/-- Bits 15..12 of the instruction's Word are its opcode (R51). -/
def Statement (i : Instr) : Prop := (encode i).extractLsb' 12 4 = opcodeOf i

theorem addReg (dr sr1 sr2 : Reg) : Statement (.addReg dr sr1 sr2) := by
  refine BitVec.eq_of_getLsbD_eq fun i hi => ?_
  simp only [encode, opcodeOf, BitVec.getLsbD_extractLsb', BitVec.getLsbD_append]
  interval_cases i <;> simp

theorem addImm (dr sr1 : Reg) (imm5 : BitVec 5) : Statement (.addImm dr sr1 imm5) := by
  refine BitVec.eq_of_getLsbD_eq fun i hi => ?_
  simp only [encode, opcodeOf, BitVec.getLsbD_extractLsb', BitVec.getLsbD_append]
  interval_cases i <;> simp

theorem andReg (dr sr1 sr2 : Reg) : Statement (.andReg dr sr1 sr2) := by
  refine BitVec.eq_of_getLsbD_eq fun i hi => ?_
  simp only [encode, opcodeOf, BitVec.getLsbD_extractLsb', BitVec.getLsbD_append]
  interval_cases i <;> simp

theorem andImm (dr sr1 : Reg) (imm5 : BitVec 5) : Statement (.andImm dr sr1 imm5) := by
  refine BitVec.eq_of_getLsbD_eq fun i hi => ?_
  simp only [encode, opcodeOf, BitVec.getLsbD_extractLsb', BitVec.getLsbD_append]
  interval_cases i <;> simp

theorem not (dr sr : Reg) : Statement (.not dr sr) := by
  refine BitVec.eq_of_getLsbD_eq fun i hi => ?_
  simp only [encode, opcodeOf, BitVec.getLsbD_extractLsb', BitVec.getLsbD_append]
  interval_cases i <;> simp

theorem br (nzp : BitVec 3) (off9 : BitVec 9) : Statement (.br nzp off9) := by
  refine BitVec.eq_of_getLsbD_eq fun i hi => ?_
  simp only [encode, opcodeOf, BitVec.getLsbD_extractLsb', BitVec.getLsbD_append]
  interval_cases i <;> simp

theorem jmp (base : Reg) : Statement (.jmp base) := by
  refine BitVec.eq_of_getLsbD_eq fun i hi => ?_
  simp only [encode, opcodeOf, BitVec.getLsbD_extractLsb', BitVec.getLsbD_append]
  interval_cases i <;> simp

theorem jsr (off11 : BitVec 11) : Statement (.jsr off11) := by
  refine BitVec.eq_of_getLsbD_eq fun i hi => ?_
  simp only [encode, opcodeOf, BitVec.getLsbD_extractLsb', BitVec.getLsbD_append]
  interval_cases i <;> simp

theorem jsrr (base : Reg) : Statement (.jsrr base) := by
  refine BitVec.eq_of_getLsbD_eq fun i hi => ?_
  simp only [encode, opcodeOf, BitVec.getLsbD_extractLsb', BitVec.getLsbD_append]
  interval_cases i <;> simp

theorem ld (dr : Reg) (off9 : BitVec 9) : Statement (.ld dr off9) := by
  refine BitVec.eq_of_getLsbD_eq fun i hi => ?_
  simp only [encode, opcodeOf, BitVec.getLsbD_extractLsb', BitVec.getLsbD_append]
  interval_cases i <;> simp

theorem ldi (dr : Reg) (off9 : BitVec 9) : Statement (.ldi dr off9) := by
  refine BitVec.eq_of_getLsbD_eq fun i hi => ?_
  simp only [encode, opcodeOf, BitVec.getLsbD_extractLsb', BitVec.getLsbD_append]
  interval_cases i <;> simp

theorem ldr (dr base : Reg) (off6 : BitVec 6) : Statement (.ldr dr base off6) := by
  refine BitVec.eq_of_getLsbD_eq fun i hi => ?_
  simp only [encode, opcodeOf, BitVec.getLsbD_extractLsb', BitVec.getLsbD_append]
  interval_cases i <;> simp

theorem lea (dr : Reg) (off9 : BitVec 9) : Statement (.lea dr off9) := by
  refine BitVec.eq_of_getLsbD_eq fun i hi => ?_
  simp only [encode, opcodeOf, BitVec.getLsbD_extractLsb', BitVec.getLsbD_append]
  interval_cases i <;> simp

theorem st (sr : Reg) (off9 : BitVec 9) : Statement (.st sr off9) := by
  refine BitVec.eq_of_getLsbD_eq fun i hi => ?_
  simp only [encode, opcodeOf, BitVec.getLsbD_extractLsb', BitVec.getLsbD_append]
  interval_cases i <;> simp

theorem sti (sr : Reg) (off9 : BitVec 9) : Statement (.sti sr off9) := by
  refine BitVec.eq_of_getLsbD_eq fun i hi => ?_
  simp only [encode, opcodeOf, BitVec.getLsbD_extractLsb', BitVec.getLsbD_append]
  interval_cases i <;> simp

theorem str (sr base : Reg) (off6 : BitVec 6) : Statement (.str sr base off6) := by
  refine BitVec.eq_of_getLsbD_eq fun i hi => ?_
  simp only [encode, opcodeOf, BitVec.getLsbD_extractLsb', BitVec.getLsbD_append]
  interval_cases i <;> simp

theorem trap (vec : BitVec 8) : Statement (.trap vec) := opcode_trapWord _

theorem getc : Statement (.getc) := opcode_trapWord _

theorem out : Statement (.out) := opcode_trapWord _

theorem puts : Statement (.puts) := opcode_trapWord _

theorem inChar : Statement (.inChar) := opcode_trapWord _

theorem putsp : Statement (.putsp) := opcode_trapWord _

theorem halt : Statement (.halt) := opcode_trapWord _

theorem trapUnknown80 (v : BitVec 7) : Statement (.trapUnknown80 v) := opcode_trapWord _

theorem trapUnknown40 (v : BitVec 6) : Statement (.trapUnknown40 v) := opcode_trapWord _

theorem trapUnknown00 (v : BitVec 5) : Statement (.trapUnknown00 v) := opcode_trapWord _

theorem trapUnknown30 (v : BitVec 4) : Statement (.trapUnknown30 v) := opcode_trapWord _

theorem trapUnknown28 (v : BitVec 3) : Statement (.trapUnknown28 v) := opcode_trapWord _

theorem trapUnknown26 (v : BitVec 1) : Statement (.trapUnknown26 v) := opcode_trapWord _

theorem rti : Statement .rti := by unfold Statement; decide

theorem res : Statement .res := by unfold Statement; decide

end Laws.OpcodeField

end Sys2Proof
end

