-- ==== Sys2Proof/Laws/Walk.lean ====
section
/-! SUPPORT. What a string walk of PUTS and PUTSP can do, said once. -/

namespace Sys2Proof.Machine

variable {emit : Word → List Byte} {n : Nat} {a : Word} {s : State}

/-- One turn of the loop. -/
theorem stringWalk_succ (emit : Word → List Byte) (n : Nat) (a : Word) (s : State) :
    stringWalk emit (n + 1) a s =
      if (s.memRead a).1 = 0#16 then (none, (s.memRead a).2)
      else stringWalk emit n (a + 1) ((s.memRead a).2.conOut (emit (s.memRead a).1)) := rfl

/-- A property of states that every read and every output keeps, a walk keeps. -/
theorem stringWalk_induct {P : State → Prop} (hread : ∀ s a, P s → P (s.memRead a).2)
    (hout : ∀ s bs, P s → P (s.conOut bs)) (hs : P s) : P (stringWalk emit n a s).2 := by
  induction n generalizing a s with
  | zero => exact hs
  | succ n ih =>
    rw [stringWalk_succ]
    split
    · exact hread s a hs
    · exact ih (hout _ _ (hread s a hs))

/-- What a walk keeps: every register, pc, the flags, ir, the engine state, the open cycle, the parameters. -/
theorem stringWalk_frame (emit : Word → List Byte) (n : Nat) (a : Word) (s : State) :
    let t := (stringWalk emit n a s).2
    t.regs = s.regs ∧ t.pc = s.pc ∧ t.cond = s.cond ∧ t.ir = s.ir ∧ t.run = s.run ∧ t.busy = s.busy ∧ t.cfg = s.cfg :=
  stringWalk_induct
    (P := fun t => t.regs = s.regs ∧ t.pc = s.pc ∧ t.cond = s.cond ∧ t.ir = s.ir ∧ t.run = s.run ∧ t.busy = s.busy ∧
      t.cfg = s.cfg)
    (fun u b hu => by simpa using hu) (fun u bs hu => by simpa using hu) ⟨rfl, rfl, rfl, rfl, rfl, rfl, rfl⟩

/-- A walk keeps the canonical form of memory. -/
theorem wf_stringWalk (hs : s.mem.wf = true) : (stringWalk emit n a s).2.mem.wf = true :=
  stringWalk_induct (P := fun t => t.mem.wf = true) (fun u b hu => u.wf_memRead b hu) (fun u bs hu => by simpa using hu)
    hs

/-- A walk changes no cell but the two mapped ones. -/
theorem read_stringWalk_other {b : Word} (hb : b ≠ s.cfg.kbsrAddr) (hb' : b ≠ s.cfg.kbdrAddr) :
    (stringWalk emit n a s).2.mem.read b = s.mem.read b :=
  (stringWalk_induct (P := fun t => t.mem.read b = s.mem.read b ∧ t.cfg = s.cfg)
    (fun u c hu => by
      obtain ⟨hm, hc⟩ := hu
      exact ⟨(u.read_memRead_other c (hc ▸ hb) (hc ▸ hb')).trans hm, by simpa using hc⟩)
    (fun u bs hu => by simpa using hu) ⟨rfl, rfl⟩).1

/-- A walk only appends to OUTPUT and only takes characters from the front of INPUT. -/
theorem env_stringWalk (emit : Word → List Byte) (n : Nat) (a : Word) (s : State) :
    let t := (stringWalk emit n a s).2
    s.env.output <+: t.env.output ∧ t.env.input <:+ s.env.input ∧ t.env.inputOpen = s.env.inputOpen :=
  stringWalk_induct
    (P := fun t => s.env.output <+: t.env.output ∧ t.env.input <:+ s.env.input ∧ t.env.inputOpen = s.env.inputOpen)
    (fun u b hu => ⟨by simpa using hu.1, (u.input_memRead b).trans hu.2.1, by simpa using hu.2.2⟩)
    (fun u bs hu => ⟨hu.1.trans (by simp), by simpa using hu.2⟩)
    ⟨List.prefix_refl _, List.suffix_refl _, rfl⟩

/-- A walk in two parts. -/
theorem stringWalk_add (emit : Word → List Byte) (m n : Nat) (a : Word) (s : State) :
    stringWalk emit (m + n) a s =
      match stringWalk emit m a s with
      | (none, t) => (none, t)
      | (some b, t) => stringWalk emit n b t := by
  induction m generalizing a s with
  | zero => simp [stringWalk]
  | succ m ih =>
    rw [Nat.add_right_comm, stringWalk_succ, stringWalk_succ]
    split <;> simp [ih]

/-- How many Words a string routine reads in one step at most. -/
abbrev walkFuel (s : State) : Nat := 65536 * walkPasses s

/-- One pass over memory. -/
theorem stringPasses_succ (emit : Word → List Byte) (n : Nat) (a : Word) (s : State) :
    stringPasses emit (n + 1) a s =
      match stringWalk emit 65536 a s with
      | (none, t) => (none, t)
      | (some b, t) => stringPasses emit n b t := rfl

/-- Passes over memory are one walk. -/
theorem stringPasses_eq (emit : Word → List Byte) (n : Nat) (a : Word) (s : State) :
    stringPasses emit n a s = stringWalk emit (65536 * n) a s := by
  induction n generalizing a s with
  | zero => rfl
  | succ n ih =>
    rw [stringPasses_succ, Nat.mul_succ, Nat.add_comm, stringWalk_add]
    split
    · rfl
    · exact ih _ _

/-- A walk that has ended stays ended. -/
theorem stringWalk_mono {m : Nat} (h : (stringWalk emit m a s).1 = none) (hmn : m ≤ n) :
    stringWalk emit n a s = stringWalk emit m a s := by
  obtain ⟨d, rfl⟩ := Nat.exists_eq_add_of_le hmn
  rw [stringWalk_add]
  split
  · rename_i e; exact e.symm
  · rename_i e; simp [e] at h

/-! ### A walk where a poll is to stop it -/

/-- A draw that succeeds uses up a named or a counted answer, if one is to fail. -/
theorem Env.drawsLeft_draw {e : Env} (h : e.draw.1 = true) :
    e.draw.2.charsLeft = e.charsLeft ∧ (e.draw.2.DrawsSucceed → e.DrawsSucceed) ∧ e.draw.2.drawsLeft ≤ e.drawsLeft ∧
      (¬ e.DrawsSucceed → e.draw.2.drawsLeft < e.drawsLeft) := by
  unfold Env.draw at h ⊢
  split
  · rename_i d ds hd
    simp only [hd] at h
    refine ⟨rfl, fun ⟨a, b⟩ => ⟨by simpa [hd, h] using a, b⟩, ?_, fun _ => ?_⟩ <;> simp [drawsLeft, hd]
  · rename_i hd
    have hf : e.failNext = false := by simpa [hd] using h
    have hne : Config.freeRun e.fails ≠ some e.sinceFail := by simpa [failNext] using hf
    have key : ¬ e.DrawsSucceed → ∃ k, Config.freeRun e.fails = some k ∧ e.sinceFail < k := fun hn => by
      by_contra hc
      refine hn ⟨by simp [hd], fun k hk => ?_⟩
      by_contra hlt
      exact hc ⟨k, hk, lt_of_le_of_ne (not_lt.1 hlt) fun e' => hne (by rw [hk, e'])⟩
    simp only [hf, Bool.false_eq_true, if_false]
    refine ⟨rfl, fun ⟨a, b⟩ => ?_, ?_, fun hn => ?_⟩
    · by_contra hn
      obtain ⟨k, hk, hl⟩ := key hn
      have := b k hk
      simp only at this
      omega
    · simp only [drawsLeft]
      omega
    · obtain ⟨k, hk, hl⟩ := key hn
      simp only [drawsLeft, hk, Option.getD_some]
      omega

/-- A character other than 0x00 uses up a named or a counted one, if a 0x00 is to come or INPUT to end. -/
theorem Env.charsLeft_kbdGet {e e' : Env} {c : Byte} (h : e.kbdGet = some (c, e')) (hc : c ≠ 0#8) :
    e'.drawsLeft = e.drawsLeft ∧ (e'.CharsGoOn → e.CharsGoOn) ∧ e'.charsLeft ≤ e.charsLeft ∧
      (¬ e.CharsGoOn → e'.charsLeft < e.charsLeft) := by
  obtain ⟨cs, hi, rfl⟩ | ⟨hi, ho, rfl, rfl⟩ := Env.kbdGet_cases h
  · refine ⟨rfl, fun ⟨a, b, d⟩ => ⟨by simpa [hi, hc] using a, b, d⟩, ?_, fun _ => ?_⟩ <;> simp [charsLeft, hi]
  · have hf := freeChar_ne.1 hc
    have hne : Config.freeStretch e.nuls ≠ some e.sinceNul := by simpa [nulNext] using hf
    have key : ¬ e.CharsGoOn → ∃ k, Config.freeStretch e.nuls = some k ∧ e.sinceNul < k := fun hn => by
      by_contra hc'
      refine hn ⟨by simp [hi], ho, fun k hk => ?_⟩
      by_contra hlt
      exact hc' ⟨k, hk, lt_of_le_of_ne (not_lt.1 hlt) fun e' => hne (by rw [hk, e'])⟩
    simp only [takeFree, hf, Bool.false_eq_true, if_false]
    refine ⟨rfl, fun ⟨a, b, d⟩ => ?_, ?_, fun hn => ?_⟩
    · by_contra hn
      obtain ⟨k, hk, hl⟩ := key hn
      have := d k hk
      simp only at this
      omega
    · simp only [charsLeft]
      omega
    · obtain ⟨k, hk, hl⟩ := key hn
      simp only [charsLeft, hk, Option.getD_some]
      omega

/-- Where not all polls to come take a character other than 0x00, one of the next few stops a walk. -/
theorem Env.stopsWithin_left {e : Env} (h : ¬ e.NeverStops) (hn : e.drawsLeft + e.charsLeft ≤ n) : e.stopsWithin n := by
  have step : ∀ e : Env, ¬ e.NeverStops → ¬ e.stops →
      ¬ e.kbdPoll.2.NeverStops ∧ e.kbdPoll.2.drawsLeft + e.kbdPoll.2.charsLeft < e.drawsLeft + e.charsLeft := by
    intro e h hs
    obtain he | ⟨c, e', hd, hg, he⟩ := e.kbdPoll_cases
    · exact absurd (.inl (by simp [he])) hs
    · have hc : c ≠ 0#8 := fun hc => hs (.inr (by simp [he, hc]))
      obtain ⟨d1, d2, d3, d4⟩ := drawsLeft_draw hd
      obtain ⟨c1, c2, c3, c4⟩ := charsLeft_kbdGet hg hc
      rw [he]
      refine ⟨fun hn => h ⟨d2 ((drawsSucceed_kbdGet hg).1 hn.1), e.charsGoOn_draw.1 (c2 hn.2)⟩, ?_⟩
      dsimp only
      by_cases hds : e.DrawsSucceed
      · have := c4 fun hcg => h ⟨hds, e.charsGoOn_draw.1 hcg⟩
        omega
      · have := d4 hds
        omega
  induction n generalizing e with
  | zero =>
    by_contra hs
    have := (step e h hs).2
    omega
  | succ n ih =>
    by_cases hs : e.stops
    · exact .inl hs
    · obtain ⟨h', hl⟩ := step e h hs
      exact .inr (ih h' (by omega))

/-- A walk that reaches a zero cell before the keyboard-status address ends there. -/
theorem stringWalk_ends_at_zero (emit : Word → List Byte) {b : Word} (hb : s.mem.read b = 0#16)
    (hk : (b - a).toNat < (s.cfg.kbsrAddr - a).toNat) (hn : (b - a).toNat < n) :
    (stringWalk emit n a s).1 = none := by
  induction n generalizing a s with
  | zero => omega
  | succ n ih =>
    have ha : a ≠ s.cfg.kbsrAddr := by rintro rfl; simp at hk
    rw [stringWalk_succ, s.memRead_plain ha]
    split
    · rfl
    · rename_i hz
      have hab : a ≠ b := fun e => hz (e ▸ hb)
      refine ih (by simpa using hb) ?_ ?_
      · simp only [State.cfg_conOut]
        bv_omega
      · bv_omega

/-- A walk ends where one of the next `m + 1` polls stops it: each visit to the keyboard-status address uses one, a
failing one stores a zero Word there and a 0x00 taken stands in the keyboard-data cell, and a visit comes within 65536
reads. -/
theorem stringWalk_ends (emit : Word → List Byte) {m : Nat} (hm : s.env.stopsWithin m)
    (hn : 65536 * m + (s.cfg.kbsrAddr - a).toNat + 65536 < n) : (stringWalk emit n a s).1 = none := by
  induction n generalizing a s m with
  | zero => omega
  | succ n ih =>
    rw [stringWalk_succ]
    split
    · rfl
    · rename_i hz
      obtain ⟨ha, hr⟩ | ⟨ha, hr⟩ := s.memRead_cases a
      · rw [hr]
        refine ih (m := m) (by simpa [State.conOut] using hm) ?_
        have : (s.cfg.kbsrAddr - (a + 1)).toNat + 1 = (s.cfg.kbsrAddr - a).toNat := by bv_omega
        simp only [State.cfg_conOut]
        omega
      · subst ha
        have hd : (s.cfg.kbsrAddr - (s.cfg.kbsrAddr + 1)).toNat = 65535 := by bv_omega
        have now : s.env.stops → (stringWalk emit n (s.cfg.kbsrAddr + 1)
            ((s.memRead s.cfg.kbsrAddr).2.conOut (emit (s.memRead s.cfg.kbsrAddr).1))).1 = none := by
          rintro (hp | hp)
          · exact absurd (by rw [State.memRead_fst, hr, State.pollKeyboard_none hp, Memory.read_write_same]) hz
          · have hne : s.cfg.kbdrAddr ≠ s.cfg.kbsrAddr := fun e => hz (by
              rw [State.memRead_fst, hr, State.pollKeyboard_some hp, ← e, Memory.read_write_same]; rfl)
            refine stringWalk_ends_at_zero emit (b := s.cfg.kbdrAddr) ?_ ?_ ?_
            · rw [State.mem_conOut, hr, State.pollKeyboard_some hp, Memory.read_write_same]; rfl
            · simp only [State.cfg_conOut, State.cfg_memRead, hd]
              bv_omega
            · have := (s.cfg.kbdrAddr - (s.cfg.kbsrAddr + 1)).isLt
              omega
        cases m with
        | zero => exact now hm
        | succ m =>
          obtain h | h := hm
          · exact now h
          · rw [hr]
            refine ih (m := m) (by simpa [State.conOut] using h) ?_
            simp only [State.cfg_conOut, State.cfg_pollKeyboard, hd]
            omega

/-! ### A walk no poll stops -/

/-- Where no poll stops a walk, a cell that is not zero stays so, the keyboard-status cell aside. -/
theorem stringWalk_nonzero (hs : s.env.NeverStops) {b : Word} (hb : b ≠ s.cfg.kbsrAddr) (hz : s.mem.read b ≠ 0#16) :
    (stringWalk emit n a s).2.mem.read b ≠ 0#16 :=
  (stringWalk_induct (P := fun t => t.mem.read b ≠ 0#16 ∧ t.env.NeverStops ∧ t.cfg = s.cfg)
    (fun u c ⟨h1, h2, h3⟩ =>
      have h := State.memRead_neverStops h2 c
      ⟨h.2.2 b (h3 ▸ hb) h1, h.1, by simpa using h3⟩)
    (fun u bs hu => ⟨hu.1, hu.2.1.conOut _, hu.2.2⟩) ⟨hz, hs, rfl⟩).1

/-- Where no poll stops a walk, none will. -/
theorem stringWalk_neverStops (hs : s.env.NeverStops) : (stringWalk emit n a s).2.env.NeverStops :=
  stringWalk_induct (P := fun t => t.env.NeverStops) (fun _ c hu => (State.memRead_neverStops hu c).1)
    (fun _ _ hu => hu.conOut _) hs

/-- Where no poll stops a walk and no cell is zero, the keyboard-status cell aside, a walk never ends. -/
theorem stringWalk_never_ends (hs : s.env.NeverStops) (hz : ∀ b, b ≠ s.cfg.kbsrAddr → s.mem.read b ≠ 0#16) :
    (stringWalk emit n a s).1 ≠ none := by
  induction n generalizing a s with
  | zero => simp [stringWalk]
  | succ n ih =>
    have h := State.memRead_neverStops hs a
    have h0 : (s.memRead a).1 ≠ 0#16 := by
      by_cases ha : a = s.cfg.kbsrAddr
      · exact h.2.1 ha
      · rw [s.memRead_plain ha]; exact hz a ha
    rw [stringWalk_succ, if_neg h0]
    exact ih (h.1.conOut _) fun b hb => h.2.2 b (by simpa using hb) (hz b (by simpa using hb))

/-- Where no poll stops a walk, one that has gone on over a cell has left it not zero. -/
theorem stringWalk_covers (hs : s.env.NeverStops) (hw : (stringWalk emit n a s).1 ≠ none) {j : Nat} (hj : j < n)
    (hb : a + BitVec.ofNat 16 j ≠ s.cfg.kbsrAddr) :
    (stringWalk emit n a s).2.mem.read (a + BitVec.ofNat 16 j) ≠ 0#16 := by
  induction n generalizing a s j with
  | zero => omega
  | succ n ih =>
    have h := State.memRead_neverStops hs a
    rw [stringWalk_succ] at hw ⊢
    split at hw
    · exact absurd rfl hw
    · rename_i h0
      rw [if_neg h0]
      cases j with
      | zero =>
        simp only [BitVec.ofNat_eq_ofNat, BitVec.add_zero] at hb ⊢
        refine stringWalk_nonzero (s := (s.memRead a).2.conOut _) (h.1.conOut _) (by simpa using hb) ?_
        simpa [State.memRead_fst] using h0
      | succ j =>
        have e : a + BitVec.ofNat 16 (j + 1) = a + 1 + BitVec.ofNat 16 j := by
          rw [BitVec.add_assoc]; congr 1; apply BitVec.eq_of_toNat_eq; simp [Nat.add_comm]
        rw [e] at hb ⊢
        exact ih (s := (s.memRead a).2.conOut _) (h.1.conOut _) hw (Nat.lt_of_succ_lt_succ hj) (by simpa using hb)

/-! ### One step walks every walk that ends -/

/-- Two walks from one place that have both ended are the same. -/
theorem stringWalk_ended_eq {m : Nat} (h : (stringWalk emit m a s).1 = none) (h' : (stringWalk emit n a s).1 = none) :
    stringWalk emit m a s = stringWalk emit n a s := by
  obtain hl | hl := Nat.le_total m n
  · exact (stringWalk_mono h hl).symm
  · exact stringWalk_mono h' hl

/-- The fuel of one step is enough where not all polls to come take a character other than 0x00. -/
theorem stringWalk_ends_of_stop (emit : Word → List Byte) (a : Word) (hs : ¬ s.env.NeverStops) :
    (stringWalk emit (walkFuel s) a s).1 = none := by
  refine stringWalk_ends emit (Env.stopsWithin_left hs (le_refl _)) ?_
  have := (s.cfg.kbsrAddr - a).isLt
  simp only [walkFuel, walkPasses]
  omega

/-- The fuel of one step is enough for every walk that ends (notes/assumptions/8.md). -/
theorem stringWalk_ends_walkFuel (emit : Word → List Byte) (a : Word) {k : Nat}
    (h : (stringWalk emit k a s).1 = none) : (stringWalk emit (walkFuel s) a s).1 = none := by
  by_cases hs : s.env.NeverStops
  · have first : (stringWalk emit 65536 a s).1 = none := by
      by_contra hw
      have never : ∀ n, (stringWalk emit (65536 + n) a s).1 ≠ none := fun n => by
        rw [stringWalk_add]
        rcases ht : stringWalk emit 65536 a s with ⟨_ | b, t⟩
        · simp [ht] at hw
        · have hc := (stringWalk_frame emit 65536 a s).2.2.2.2.2.2
          have hcov := @stringWalk_covers emit 65536 a s hs hw
          have hst := @stringWalk_neverStops emit 65536 a s hs
          rw [ht] at hc hcov hst
          refine stringWalk_never_ends hst fun b hb => ?_
          have := hcov (j := (b - a).toNat) (b - a).isLt
          have e : a + BitVec.ofNat 16 (b - a).toNat = b := by bv_omega
          rw [e] at this
          exact this (hc ▸ hb)
      exact never k (by rw [Nat.add_comm, stringWalk_mono h (by omega), h])
    rw [stringWalk_mono first (by simp only [walkFuel, walkPasses]; omega), first]
  · exact stringWalk_ends_of_stop emit a hs

end Sys2Proof.Machine
end

