-- ==== Sys2Proof/Laws/Routines.lean ====
section
/-! SUPPORT. What the shared operations of the meanings can do, each said once. -/

namespace Sys2Proof.Machine

/-- GETC's routine takes a character into R0, or leaves its cycle open. -/
theorem getcRoutine_cases (s : State) :
    (∃ c e, s.env.kbdGet = some (c, e) ∧ getcRoutine s = .next (State.setReg { s with env := e } 0 (zext c))) ∨
    (s.env.kbdGet = none ∧ getcRoutine s = .next { s with busy := some .getc }) := by
  unfold getcRoutine
  split
  · rename_i c e hg
    exact .inl ⟨c, e, hg, rfl⟩
  · rename_i hg
    exact .inr ⟨hg, rfl⟩

/-- IN after its prompt takes a character, echoes and stores it, or leaves its cycle open. -/
theorem inReceive_cases (s : State) :
    (∃ c e, s.env.kbdGet = some (c, e) ∧
      inReceive s = .next ((State.conOut { s with env := e } [c]).setReg 0 (zext c))) ∨
    (s.env.kbdGet = none ∧ inReceive s = .next { s with busy := some .inChar }) := by
  unfold inReceive
  split
  · rename_i c e hg
    exact .inl ⟨c, e, hg, rfl⟩
  · rename_i hg
    exact .inr ⟨hg, rfl⟩

/-- A string routine answers the state its walk ends in, or the state its walk has come to, with its cycle open. -/
theorem stringRoutine_cases (emit : Word → List Byte) (more : Word → Busy) (a : Word) (s : State) :
    ((stringWalk emit (walkFuel s) a s).1 = none ∧
      stringRoutine emit more a s = .next (stringWalk emit (walkFuel s) a s).2) ∨
    (∃ b, (stringWalk emit (walkFuel s) a s).1 = some b ∧
      stringRoutine emit more a s = .next { (stringWalk emit (walkFuel s) a s).2 with busy := some (more b) }) := by
  unfold stringRoutine
  rw [stringPasses_eq]
  split
  · rename_i t h
    exact .inl (by simp [h])
  · rename_i b t h
    exact .inr ⟨b, by simp [h]⟩

/-- A string routine whose walk ends, however late, answers the state it ends in (notes/assumptions/8.md). -/
theorem stringRoutine_ends (emit : Word → List Byte) (more : Word → Busy) {a : Word} {s : State} {k : Nat}
    (h : (stringWalk emit k a s).1 = none) : stringRoutine emit more a s = .next (stringWalk emit k a s).2 := by
  have hf := stringWalk_ends_walkFuel emit a h
  obtain ⟨-, e⟩ | ⟨b, hb, -⟩ := stringRoutine_cases emit more a s
  · rw [e, stringWalk_ended_eq hf h]
  · simp [hf] at hb

/-- With INPUT closed, or a failing poll named, not all polls to come take a character other than 0x00. -/
theorem not_neverStops {e : Env} (h : e.inputOpen = false ∨ false ∈ e.draws) : ¬ e.NeverStops := fun hn => by
  obtain h | h := h
  · simp [hn.chars.isOpen] at h
  · exact absurd (hn.draws.draws _ h) (by decide)

/-- Where a poll is to stop its walk, PUTS is over in one step. -/
theorem exec_puts_ends {s : State} (h : ¬ s.env.NeverStops) : ∃ t, exec .puts s = .next t ∧ t.busy = s.busy :=
  ⟨_, stringRoutine_ends putsEmit .puts (stringWalk_ends_of_stop (s := s.trapEntry) putsEmit _ h),
    (stringWalk_frame ..).2.2.2.2.2.1⟩

/-- Where a poll is to stop its walk, PUTSP is over in one step. -/
theorem exec_putsp_ends {s : State} (h : ¬ s.env.NeverStops) : ∃ t, exec .putsp s = .next t ∧ t.busy = s.busy :=
  ⟨_, stringRoutine_ends putspEmit .putsp (stringWalk_ends_of_stop (s := s.trapEntry) putspEmit _ h),
    (stringWalk_frame ..).2.2.2.2.2.1⟩

/-- What a load leaves: the read's state, the destination and the flag written. -/
theorem loadResult_eq (s : State) (dr : Reg) (a : Word) :
    s.loadResult dr a = (s.memRead a).2.writeResult dr (s.memRead a).1 := rfl

/-- A step in RUNNING with no open cycle is one whole instruction cycle. -/
theorem step_idle {s : State} (hr : s.run = .running) (hb : s.busy = none) :
    step s = exec (decode s.fetch.1) s.fetch.2 := by simp [step, hr, hb]

/-- A step in RUNNING with an open cycle goes on with it. -/
theorem step_busy {s : State} {b : Busy} (hr : s.run = .running) (hb : s.busy = some b) :
    step s = resume b { s with busy := none } := by simp [step, hr, hb]

end Sys2Proof.Machine
end

