-- ==== Sys2Proof/Tests/Slice0.lean ====
section
/-! SUPPORT. Tests: expected results are those of spec/95_test_vectors.md or of the rules' own examples, cited by
section or rule; and for each statement with hypotheses a witness that meets them. -/

open Sys2Proof Sys2Proof.Machine Sys2Proof.Claims

namespace Sys2Proof.Tests

/-- The start state of spec/95_test_vectors.md: every register and cell zero, `cond = Z`, INPUT empty. -/
def at3000 (w : Word) : State := State.resetWith { memInit := Memory.write [] 0x3000#16 w, inputOpen := false }

/-- The same with the instruction at another address. -/
def atPc (pc w : Word) : State :=
  State.resetWith { origin := pc, memInit := Memory.write [] pc w, inputOpen := false }

/-- The same with characters pending and poll answers scripted. -/
def withKeys (s : State) (input : List Byte) (draws : List Bool) : State :=
  { s with env := { s.env with input := input, draws := draws } }

/-- A view of the state after one step, if there is one. -/
def seen {α : Type} (f : State → α) (s : State) : Option α :=
  match step s with
  | .next t => some (f t)
  | _ => none

/-! ### Well-formedness, decoding, encoding -/

theorem test_generic_trap_is_ill_formed : (Instr.trap 0x21#8).wellFormed = false := by decide
theorem test_getc_is_well_formed : Instr.getc.wellFormed = true := by decide

/-- One Word per constructor the decoder answers, written out from the patterns of R56 (95_test_vectors.md section 2). -/
theorem test_decode_operate :
    decode 0b0001010000000001#16 = .addReg 2 0 1 ∧ decode 0b0001001001111111#16 = .addImm 1 1 31#5 ∧
    decode 0b0101010000000001#16 = .andReg 2 0 1 ∧ decode 0b0101101101101111#16 = .andImm 5 5 15#5 ∧
    decode 0b1001001010111111#16 = .not 1 2 := by decide
theorem test_decode_control :
    decode 0b0000001111111101#16 = .br 1#3 0x1FD#9 ∧ decode 0b1100000111000000#16 = .jmp 7 ∧
    decode 0b0100110000000000#16 = .jsr 0x400#11 ∧ decode 0b0100000111000000#16 = .jsrr 7 := by decide
theorem test_decode_data_movement :
    decode 0b0010001111111111#16 = .ld 1 0x1FF#9 ∧ decode 0b1010010000000001#16 = .ldi 2 1#9 ∧
    decode 0b0110011100111111#16 = .ldr 3 4 63#6 ∧ decode 0b1110101011111111#16 = .lea 5 0x0FF#9 ∧
    decode 0b0011001000000010#16 = .st 1 2#9 ∧ decode 0b1011010000000001#16 = .sti 2 1#9 ∧
    decode 0b0111011100111111#16 = .str 3 4 63#6 := by decide
theorem test_decode_routines :
    decode 0xF020#16 = .getc ∧ decode 0xFA21#16 = .out ∧ decode 0xF022#16 = .puts ∧ decode 0xF023#16 = .inChar ∧
    decode 0xF024#16 = .putsp ∧ decode 0xFF25#16 = .halt := by decide
theorem test_decode_unknown_vectors :
    decode 0xFFFF#16 = .trapUnknown80 127#7 ∧ decode 0xF040#16 = .trapUnknown40 0#6 ∧
    decode 0xF01F#16 = .trapUnknown00 31#5 ∧ decode 0xF030#16 = .trapUnknown30 0#4 ∧
    decode 0xF02F#16 = .trapUnknown28 7#3 ∧ decode 0xF027#16 = .trapUnknown26 1#1 := by decide
theorem test_decode_undefined : decode 0x8123#16 = .rti ∧ decode 0xDABC#16 = .res := by decide
/-- The canonical ignored bits of R56 and its examples. -/
theorem test_encode_canonical :
    encode (.not 1 2) = 0x92BF#16 ∧ encode (.jmp 7) = 0xC1C0#16 ∧ encode (.jsrr 2) = 0x4080#16 ∧
    encode .halt = 0xF025#16 ∧ encode (.trapUnknown26 0#1) = 0xF026#16 ∧ encode (.br 2#3 5#9) = 0x0405#16 := by decide
theorem test_table_word : decodeTableWord 16 0xE002 = some (.lea 0 2#9) ∧ decodeTableWord 17 0 = none := by decide

/-! ### Primitives (95_test_vectors.md section 2) -/

theorem test_sext : sext 0b10000#5 = 0xFFF0#16 ∧ sext 0b011111#6 = 0x001F#16 ∧ sext 0x100#9 = 0xFF00#16 ∧
    sext 0x400#11 = 0xFC00#16 := by decide
theorem test_cond : condOf 0#16 = .z ∧ condOf 0x7FFF#16 = .p ∧ condOf 0x8000#16 = .n := by decide
theorem test_memory_forgets_zero :
    (Memory.write (Memory.write (Memory.write [] 5#16 1#16) 3#16 2#16) 5#16 0#16) = [(3, 2#16)] := by decide

/-! ### Operate (section 3) -/

theorem test_add_signed_overflow_wraps :
    seen (fun t => (t.reg 2, t.cond, t.pc)) (((at3000 0x1401#16).setReg 0 0x7FFF#16).setReg 1 1#16) =
      some (0x8000#16, .n, 0x3001#16) := by decide
theorem test_add_carry_lost :
    seen (fun t => (t.reg 2, t.cond)) (((at3000 0x1419#16).setReg 0 0xFFFF#16).setReg 1 1#16) = some (0#16, .z) := by
  decide
theorem test_add_imm_minus_16 :
    seen (fun t => (t.reg 3, t.cond)) ((at3000 0x1730#16).setReg 4 0x10#16) = some (0#16, .z) := by decide
theorem test_and_reg :
    seen (fun t => (t.reg 2, t.cond)) (((at3000 0x5401#16).setReg 0 0xF0F0#16).setReg 1 0xFF00#16) =
      some (0xF000#16, .n) := by decide
theorem test_and_imm_extends :
    seen (fun t => (t.reg 5, t.cond)) ((at3000 0x5B70#16).setReg 5 0xABCD#16) = some (0xABC0#16, .n) := by decide
theorem test_not_in_place :
    seen (fun t => (t.reg 3, t.cond)) ((at3000 0x96FF#16).setReg 3 0xFFFF#16) = some (0#16, .z) := by decide

/-! ### Control transfer (section 4) -/

theorem test_br_zp_on_p : seen State.pc { at3000 0x0605#16 with cond := .p } = some 0x3006#16 := by decide
theorem test_br_wraps : seen State.pc (atPc 0xFFFF#16 0x0E01#16) = some 0x0001#16 := by decide
theorem test_jmp_ignored_bits : seen State.pc ((at3000 0xCEBF#16).setReg 2 0x4000#16) = some 0x4000#16 := by decide
theorem test_jsr_back : seen (fun t => (t.reg 7, t.pc)) (at3000 0x4C00#16) = some (0x3001#16, 0x2C01#16) := by decide
theorem test_jsrr_r7_falls_through :
    seen (fun t => (t.reg 7, t.pc)) ((at3000 0x41C0#16).setReg 7 0x5000#16) = some (0x3001#16, 0x3001#16) := by decide
theorem test_jsrr : seen (fun t => (t.reg 7, t.pc)) ((at3000 0x46BF#16).setReg 2 0x5000#16) =
    some (0x3001#16, 0x5000#16) := by decide

/-! ### Loads and stores (sections 5 and 6) -/

theorem test_ld_own_word : seen (fun t => (t.reg 1, t.cond)) (at3000 0x23FF#16) = some (0x23FF#16, .p) := by decide
theorem test_ld_polls :
    seen (fun t => (t.reg 1, t.mem.read 0xFE02#16, t.env.input)) (withKeys (atPc 0xFDFE#16 0x2201#16) [0x61#8] [true]) =
      some (0x8000#16, 0x0061#16, []) := by decide
theorem test_ldi :
    seen (fun t => (t.reg 2, t.cond)) (((at3000 0xA401#16).memWrite 0x3002#16 0x4000#16).memWrite 0x4000#16 0x8001#16) =
      some (0x8001#16, .n) := by decide
theorem test_ldi_poll_draws_none :
    seen (fun t => (t.reg 2, t.mem.read 0xFE00#16, t.env.input))
      (withKeys ((at3000 0xA401#16).memWrite 0x3002#16 0xFE00#16) [0x61#8] [false]) =
      some (0#16, 0#16, [0x61#8]) := by decide
theorem test_ldr_base_is_destination :
    seen (fun t => t.reg 4) (((at3000 0x6900#16).setReg 4 0x4000#16).memWrite 0x4000#16 0x1234#16) =
      some 0x1234#16 := by decide
theorem test_lea_sets_n : seen (fun t => (t.reg 5, t.cond)) (atPc 0x7F00#16 0xEAFF#16) = some (0x8000#16, .n) := by decide
theorem test_st_own_word :
    seen (fun t => (t.mem.read 0x3000#16, t.cond)) ((at3000 0x33FF#16).setReg 1 0xCAFE#16) = some (0xCAFE#16, .z) := by
  decide
theorem test_sti_pointer_at_kbsr :
    seen (fun t => (t.mem.read 0x8000#16, t.mem.read 0xFE00#16, t.mem.read 0xFE02#16))
      (withKeys ((atPc 0xFDFE#16 0xB401#16).setReg 2 7#16) [0x61#8] [true]) =
      some (7#16, 0x8000#16, 0x61#16) := by decide
theorem test_sti_to_kbsr_does_not_poll :
    seen (fun t => (t.mem.read 0xFE00#16, t.env.input))
      (withKeys (((at3000 0xB401#16).setReg 2 7#16).memWrite 0x3002#16 0xFE00#16) [0x61#8] [true]) =
      some (7#16, [0x61#8]) := by decide
theorem test_str_wraps :
    seen (fun t => t.mem.read 0xFFFF#16) ((at3000 0x773F#16).setReg 3 0xAA#16) = some 0xAA#16 := by decide

/-! ### Traps (sections 6 and 7) -/

theorem test_getc :
    seen (fun t => (t.reg 0, t.reg 7, t.cond, t.env.input))
      (withKeys { (at3000 0xFA20#16).setReg 0 0xFFFF#16 with cond := .n } [0x0A#8, 0x42#8] []) =
      some (0x000A#16, 0x3001#16, .n, [0x42#8]) := by decide
/-- With INPUT empty for ever GETC never completes and IN has written its prompt (R101, R104). -/
theorem test_getc_on_empty_input_waits :
    seen (fun t => (t.busy, t.reg 7, t.run)) (at3000 0xF020#16) = some (some .getc, 0x3001#16, .running) := by decide
theorem test_in_on_empty_input_has_prompted :
    seen (fun t => (t.busy, t.env.output.length)) (at3000 0xF023#16) = some (some .inChar, 19) := by decide
theorem test_in_goes_on :
    seen (fun t => (t.busy, t.reg 0, t.env.output, t.pc)) { withKeys (at3000 0#16) [0x7A#8] [] with busy := some .inChar } =
      some (none, 0x7A#16, [0x7A#8], 0x3000#16) := by decide
theorem test_puts_goes_on :
    seen (fun t => (t.busy, t.env.output, t.reg 7))
      { (at3000 0#16).memWrite 0x4000#16 0x0148#16 with busy := some (.puts 0x4000#16) } =
      some (none, [0x48#8], 0#16) := by decide
theorem test_out : seen (fun t => (t.env.output, t.reg 7)) ((at3000 0xF021#16).setReg 0 0x1241#16) =
    some ([0x41#8], 0x3001#16) := by decide
theorem test_puts_wraps :
    seen (fun t => (t.env.output, t.reg 0))
      ((((at3000 0xF022#16).setReg 0 0xFFFF#16).memWrite 0xFFFF#16 0x41#16).memWrite 0#16 0x42#16) =
      some ([0x41#8, 0x42#8], 0xFFFF#16) := by decide
theorem test_puts_over_kbsr :
    seen (fun t => (t.env.output, t.mem.read 0xFE02#16, t.env.input))
      (withKeys (((at3000 0xF022#16).setReg 0 0xFDFF#16).memWrite 0xFDFF#16 0x41#16) [0x78#8] [true]) =
      some ([0x41#8, 0x00#8], 0x78#16, []) := by decide
theorem test_in :
    seen (fun t => (t.reg 0, t.env.output.length, t.env.output.getLast?, t.cond))
      (withKeys { at3000 0xF023#16 with cond := .n } [0x7A#8] []) = some (0x7A#16, 20, some 0x7A#8, .n) := by decide
theorem test_putsp_hello :
    seen (fun t => t.env.output)
      (((((at3000 0xF024#16).setReg 0 0x4000#16).memWrite 0x4000#16 0x6548#16).memWrite 0x4001#16 0x006C#16).memWrite
        0x4002#16 0x6F6C#16) = some [0x48#8, 0x65#8, 0x6C#8, 0x6C#8, 0x6F#8] := by decide
theorem test_putsp_zero_low_byte :
    seen (fun t => t.env.output) (((at3000 0xF024#16).setReg 0 0x4000#16).memWrite 0x4000#16 0x4100#16) =
      some [0x00#8, 0x41#8] := by decide
theorem test_halt : seen (fun t => (t.run, t.reg 7, t.pc, t.env.output)) (at3000 0xFF25#16) =
    some (.halted, 0x3001#16, 0x3001#16, []) := by decide
theorem test_generic_trap_is_its_routine :
    (match exec (.trap 0x21#8) ((at3000 0#16).setReg 0 0x1241#16) with | .next t => some t.env.output | _ => none) =
      some [0x41#8] := by decide

/-! ### Faults (section 8) -/

theorem test_unknown_vector_00 : seen (fun t => (t.run, t.reg 7)) (at3000 0xF01F#16) =
    some (.fatal (.unknownTrapVector 0x1F#8 0xF01F#16 0x3001#16), 0x3001#16) := by decide
theorem test_unknown_vector_26 : seen (fun t => (t.run, t.reg 7)) (at3000 0xF026#16) =
    some (.fatal (.unknownTrapVector 0x26#8 0xF026#16 0x3001#16), 0x3001#16) := by decide
theorem test_unknown_vector_28 : seen State.run (at3000 0xF028#16) =
    some (.fatal (.unknownTrapVector 0x28#8 0xF028#16 0x3001#16)) := by decide
theorem test_unknown_vector_30 : seen State.run (at3000 0xF030#16) =
    some (.fatal (.unknownTrapVector 0x30#8 0xF030#16 0x3001#16)) := by decide
theorem test_unknown_vector_40 : seen State.run (at3000 0xF040#16) =
    some (.fatal (.unknownTrapVector 0x40#8 0xF040#16 0x3001#16)) := by decide
theorem test_unknown_vector_ff : seen State.run (at3000 0xFFFF#16) =
    some (.fatal (.unknownTrapVector 0xFF#8 0xFFFF#16 0x3001#16)) := by decide
theorem test_res : seen (fun t => (t.run, t.reg 7, t.pc)) (at3000 0xDABC#16) =
    some (.fatal (.unimplementedOpcode 0xD#4 0xDABC#16 0x3001#16), 0#16, 0x3001#16) := by decide
theorem test_rti_fetched_from_kbsr :
    seen (fun t => (t.run, t.mem.read 0xFE02#16)) (withKeys (atPc 0xFE00#16 0x1234#16) [0x61#8] [true]) =
      some (.fatal (.unimplementedOpcode 0x8#4 0x8000#16 0xFE01#16), 0x61#16) := by decide

/-! ### The free values: what the spec fixes holds whatever they are -/

/-- A poll the state names no answer for is a draw: the two answers, and no other, follow the free value. -/
theorem test_free_draw (k : Option Nat) (h : Config.freeRun 0 = k) :
    (withKeys (at3000 0#16) [0x61#8] []).env.kbdPoll.1 = if k = some 0 then none else some 0x61#8 := by
  by_cases hk : k = some 0 <;>
    simp [withKeys, at3000, State.resetWith, Env.kbdPoll, Env.draw, Env.kbdGet, Env.failNext, h, hk]
/-- GETC from reset completes with a free character in R0. -/
theorem test_getc_from_reset :
    seen (fun t => (t.reg 7, t.run, t.busy)) (State.reset.withFetchWord 16 0xF020) =
      some (0x3001#16, .running, none) := by decide

/-! ### Witnesses: for each statement with hypotheses, a state and operands that meet them -/

theorem witness_DecodeOfEncodeIsTheInstruction :
    (Instr.ldr 3 4 63#6).wellFormed = true ∧ (Instr.trapUnknown26 1#1).wellFormed = true := by decide
theorem witness_FatalWordsAreExactlyTheIllegalOnes : (at3000 0xD000#16).run = .running := by decide
theorem witness_StepFetchesIncrementsDecodesExecutes :
    (State.reset.run = .running ∧ State.reset.busy = none ∧ State.reset.pc ≠ State.reset.cfg.kbsrAddr) ∧
    State.reset.halt.run ≠ .running := by decide
theorem witness_NoStepLeavesHaltedOrFatal :
    State.reset.halt.run = .halted ∧
    (State.reset.raiseFatal (.unknownTrapVector 0#8 0xF000#16 0x3001#16)).run =
      .fatal (.unknownTrapVector 0#8 0xF000#16 0x3001#16) := by decide
theorem witness_FetchAtKeyboardStatusIsRtiOrNoOp :
    (atPc 0xFE00#16 1#16).run = .running ∧ (atPc 0xFE00#16 1#16).busy = none ∧ (atPc 0xFE00#16 1#16).pc = (atPc 0xFE00#16 1#16).cfg.kbsrAddr ∧
    (atPc 0xFE00#16 1#16).cfg.kbsrAddr ≠ (atPc 0xFE00#16 1#16).cfg.kbdrAddr := by decide
theorem witness_PlacedWordIsRunNext : State.reset.pc ≠ State.reset.cfg.kbsrAddr ∧ 65535 < 65536 := by decide
theorem witness_WriteStoresTheWordAndNothingElse :
    let s := withKeys State.reset [0x61#8] [false]
    0xFE02#16 ≠ s.cfg.kbsrAddr ∧ 0xFE01#16 ≠ s.cfg.kbdrAddr ∧ s.cfg.kbsrAddr ≠ s.cfg.kbdrAddr ∧
    s.env.kbdPoll.1 = none := by decide
theorem witness_ReadElsewhereReturnsTheStoredWord : 0xFDFF#16 ≠ State.reset.cfg.kbsrAddr := by decide
theorem witness_ReadOfKeyboardStatusPolls :
    State.reset.cfg.kbsrAddr ≠ State.reset.cfg.kbdrAddr ∧
    (withKeys State.reset [0xFF#8] [true]).env.kbdPoll.1 = some 0xFF#8 ∧
    (withKeys State.reset [0xFF#8] [false]).env.kbdPoll.1 = none := by decide
theorem witness_PollIsADrawOverTheFirstCharacter :
    (withKeys State.reset [0x61#8] [false]).env.kbdPoll.1 = none ∧
    (withKeys State.reset [0x61#8, 0x62#8] []).env.input = 0x61#8 :: [0x62#8] ∧
    (State.reset.env.input = [] ∧ State.reset.env.inputOpen = true) ∧
    ((at3000 0#16).env.input = [] ∧ (at3000 0#16).env.inputOpen = false) ∧
    (withKeys State.reset [0x61#8] []).env.kbdGet = some (0x61#8, State.reset.env) := by decide
theorem witness_SecondPollLosesTheFirstCharacter :
    let s := withKeys State.reset [0x61#8, 0x62#8] [true, true]
    s.cfg.kbsrAddr ≠ s.cfg.kbdrAddr ∧ s.env.input = 0x61#8 :: 0x62#8 :: [] ∧ s.env.draws = true :: true :: [] := by
  decide
theorem witness_StoreToTheNextInstructionIsFetched :
    (∀ s ∈ [at3000 0x3000#16, (at3000 0x7040#16).setReg 1 0x3001#16, (at3000 0xB001#16).memWrite 0x3002#16 0x3001#16],
      s.run = .running ∧ s.busy = none ∧ s.pc ≠ s.cfg.kbsrAddr ∧ s.pc + 1 ≠ s.cfg.kbsrAddr ∧
      storeOf (decode (s.mem.read s.pc)) { s with ir := s.mem.read s.pc, pc := s.pc + 1 } = some (0, s.pc + 1)) := by
  decide
/-- Results at the boundaries of the three clauses: 0x0000, 0x8000, 0x7FFF, 0x0001; and an instruction of the last. -/
theorem witness_FlagsFollowTheWrittenResult :
    flagDest (.addImm 0 1 0#5) = some 0 ∧
    (∃ t, exec (.addImm 0 1 0#5) (State.reset.setReg 1 0#16) = .next t ∧ t.reg 0 = 0#16) ∧
    (∃ t, exec (.addImm 0 1 0#5) (State.reset.setReg 1 0x8000#16) = .next t ∧ 32768 ≤ (t.reg 0).toNat) ∧
    (∃ t, exec (.addImm 0 1 0#5) (State.reset.setReg 1 0x7FFF#16) = .next t ∧ 0 < (t.reg 0).toNat ∧
      (t.reg 0).toNat < 32768) ∧
    (∃ t, exec .out State.reset = .next t) ∧ flagDest .out = none :=
  ⟨rfl, ⟨_, rfl, by decide⟩, ⟨_, rfl, by decide⟩, ⟨_, rfl, by decide⟩, ⟨_, rfl⟩, rfl⟩
theorem witness_SubtractionIsNotThenAddOneThenAdd : (2 : Reg) ≠ 0 := by decide
theorem witness_WordsWithAnEmptyMaskAreNoOps : (0x01FF#16 : Word).toNat < 0x0200 := by decide
theorem witness_LoadResult :
    State.reset.pc + (1#9).signExtend 16 ≠ State.reset.cfg.kbsrAddr ∧
    State.reset.reg 1 + (63#6).signExtend 16 ≠ State.reset.cfg.kbsrAddr := by decide
theorem witness_LoadIndirectResult :
    State.reset.pc + (1#9).signExtend 16 ≠ State.reset.cfg.kbsrAddr ∧
    State.reset.mem.read (State.reset.pc + (1#9).signExtend 16) ≠ State.reset.cfg.kbsrAddr := by decide
theorem witness_LoadEffectiveAddressResult :
    (0x3003#16 : Word) = { State.reset with pc := 0x3001#16 }.pc + (2#9).signExtend 16 := by decide
theorem witness_StoreIndirectResult : State.reset.pc + (1#9).signExtend 16 ≠ State.reset.cfg.kbsrAddr := by decide
theorem witness_TrapEntrySavesPcInR7AndNothingElse :
    isTrap .out = true ∧ (∃ t, exec .out State.reset = .next t) ∧ (1 : Reg) ≠ 7 ∧ (1 : Reg) ≠ 0 ∧
    0xFE01#16 ≠ State.reset.cfg.kbsrAddr ∧ 0xFE01#16 ≠ State.reset.cfg.kbdrAddr ∧ ¬ readsChar .out := by
  refine ⟨rfl, ⟨_, rfl⟩, by decide, by decide, by decide, by decide, ?_⟩
  unfold readsChar
  decide
theorem witness_GenericTrapDispatchesOnItsVector :
    State.reset.busy = none ∧ State.reset.env.inputOpen = true ∧ (withKeys State.reset [1#8] []).env.input ≠ [] ∧
    (at3000 0#16).env.inputOpen = false ∧ false ∈ (withKeys State.reset [] [true, false]).env.draws ∧
    ((0x26#8 : BitVec 8) ≠ 0x20#8 ∧ (0x26#8 : BitVec 8) ≠ 0x22#8 ∧ (0x26#8 : BitVec 8) ≠ 0x23#8 ∧
      (0x26#8 : BitVec 8) ≠ 0x24#8) := by decide
theorem witness_GetcResult :
    (withKeys State.reset [0xFF#8] []).env.input = 0xFF#8 :: [] ∧
    (State.reset.env.input = [] ∧ State.reset.env.inputOpen = true) ∧
    ((at3000 0#16).env.input = [] ∧ (at3000 0#16).env.inputOpen = false) := by decide
theorem witness_InResult :
    (withKeys State.reset [0x7A#8] []).env.input = 0x7A#8 :: [] ∧
    (State.reset.env.input = [] ∧ State.reset.env.inputOpen = true) ∧
    ((at3000 0#16).env.input = [] ∧ (at3000 0#16).env.inputOpen = false) := by decide
theorem witness_StringTrapsRunTheLoopAndEnd :
    (at3000 0#16).busy = none ∧ (∃ t, exec .puts (at3000 0#16) = .next t ∧ t.busy = (at3000 0#16).busy) ∧
    (∃ t, exec .putsp (at3000 0#16) = .next t ∧ t.busy = (at3000 0#16).busy) ∧ (at3000 0#16).run = .running ∧
    (at3000 0#16).env.inputOpen = false ∧ false ∈ (withKeys State.reset [] [true, false]).env.draws :=
  ⟨rfl, exec_puts_ends (not_neverStops (.inl rfl)), exec_putsp_ends (not_neverStops (.inl rfl)), rfl, rfl, by decide⟩
/-- The string `Hi` of R103's example, in a state whose INPUT is open, and the empty string. -/
theorem witness_StringTrapsWriteTheString :
    let s := ((State.reset.setReg 0 0x4000#16).memWrite 0x4000#16 0x48#16).memWrite 0x4001#16 0x169#16
    HoldsString s (s.reg 0) [0x48#16, 0x169#16] ∧ HoldsString s 0x4002#16 [] := by
  refine ⟨⟨fun k hk => ?_, ?_, by decide⟩, ⟨fun k hk => ?_, fun k hk => absurd hk (by simp), by decide⟩⟩
  · simp only [List.length_cons, List.length_nil] at hk
    interval_cases k <;> decide
  · rintro (_ | _ | k) h
    · exact ⟨show _ = 0x48#16 by decide, show 0x48#16 ≠ 0#16 by decide⟩
    · exact ⟨show _ = 0x169#16 by decide, show 0x169#16 ≠ 0#16 by decide⟩
    · simp at h
  · simp only [List.length_nil] at hk
    interval_cases k
    decide
theorem witness_UnknownVectorIsFatalAfterTheLinkage : ¬ knownVector 0x1F#8 ∧ ¬ knownVector 0x26#8 := by
  unfold knownVector
  decide
theorem witness_EngineLeavesRunningOnlyByHaltOrFatal :
    (∃ t, step (at3000 0xF025#16) = .next t ∧ t.run = .halted) ∧
    (∃ t, step (at3000 0xD000#16) = .next t ∧ ∃ c, t.run = .fatal c) ∧
    (∃ t, step (at3000 0#16) = .next t ∧ t.run = .running) ∧ (at3000 0#16).busy = none ∧
    (∃ t, step { at3000 0#16 with busy := some .getc } = .next t) :=
  ⟨⟨_, rfl, rfl⟩, ⟨_, rfl, _, rfl⟩, ⟨_, rfl, rfl⟩, rfl, ⟨_, rfl⟩⟩
theorem witness_FatalPayloadDescribesTheFaultingWord :
    (∃ t c, step (at3000 0x8000#16) = .next t ∧ t.run = .fatal c) ∧
    (∃ t c, step (at3000 0xF026#16) = .next t ∧ t.run = .fatal c) :=
  ⟨⟨_, _, rfl, rfl⟩, ⟨_, _, rfl, rfl⟩⟩
theorem witness_RegistersAreWrittenOnlyAsNamed :
    (∃ t, exec (.addReg 2 0 1) State.reset = .next t) ∧ ¬ mayWrite (.addReg 2 0 1) 0 := by
  refine ⟨⟨_, rfl⟩, ?_⟩
  unfold mayWrite readsChar
  decide
theorem witness_OnlyControlTransfersWritePc :
    (∃ t, exec (.ld 1 2#9) State.reset = .next t) ∧ isControl (.ld 1 2#9) = false := ⟨⟨_, rfl⟩, rfl⟩
theorem witness_OnlyStoresChangeMemoryOutsideTheKeyboard :
    (∃ t, exec (.ld 1 2#9) State.reset = .next t) ∧ isStore (.ld 1 2#9) = false ∧
    0xFE01#16 ≠ State.reset.cfg.kbsrAddr ∧ 0xFE01#16 ≠ State.reset.cfg.kbdrAddr :=
  ⟨⟨_, rfl⟩, rfl, by decide, by decide⟩
theorem witness_LinkageIsTheFollowingAddress :
    (at3000 0x4810#16).busy = none ∧
    ∃ t, step (at3000 0x4810#16) = .next t ∧ links (decode (at3000 0x4810#16).fetch.1) = true :=
  ⟨rfl, _, rfl, by decide⟩
theorem witness_OutputOnlyGrowsAndInputOnlyShrinks :
    (∃ t, exec .getc (withKeys State.reset [1#8] []) = .next t) ∧ mayOutput .getc = false ∧
    (∃ t, step (at3000 0xF021#16) = .next t) := ⟨⟨_, rfl⟩, rfl, ⟨_, rfl⟩⟩
theorem witness_StepKeepsTheDataInvariant :
    (at3000 0x33FF#16).Inv ∧ ∃ t, step (at3000 0x33FF#16) = .next t := ⟨by decide, _, rfl⟩
theorem witness_StepIgnoresInputUnlessItReadsTheKeyboard :
    let s := at3000 0x2202#16
    s.run = .running ∧ s.busy = none ∧ s.pc ≠ s.cfg.kbsrAddr ∧
    ¬ mayReadKeyboard (decode (s.mem.read s.pc)) { s with ir := s.mem.read s.pc, pc := s.pc + 1 } := by
  refine ⟨rfl, rfl, by decide, ?_⟩
  rw [show decode ((at3000 0x2202#16).mem.read (at3000 0x2202#16).pc) = .ld 1 2#9 by decide]
  unfold mayReadKeyboard
  decide
theorem witness_WaitingTrapGoesOnWhenACharacterComes :
    (at3000 0#16).run = .running ∧ { at3000 0#16 with busy := some .getc }.busy = some .getc ∧
    { at3000 0#16 with busy := some .inChar }.busy = some .inChar ∧
    (withKeys (at3000 0#16) [0x7A#8] []).env.kbdGet = some (0x7A#8, (at3000 0#16).env) ∧
    ((at3000 0#16).env.input = [] ∧ (at3000 0#16).env.inputOpen = false) := by decide
theorem witness_RunningMachineAlwaysAnswersNext :
    { at3000 0#16 with busy := some (.putsp 0xFFFF#16) }.run = .running := by decide
theorem witness_OpenCycleIsNeverOver :
    (at3000 0xF020#16).busy = none ∧ ∃ t, step (at3000 0xF020#16) = .next t ∧ t.busy ≠ none := ⟨rfl, _, rfl, by decide⟩

end Sys2Proof.Tests
end

section
/-! PROOFS. The statements about spec/00_scope.md: what a cycle keeps, the cycle that is never over, a poll of the
keyboard, and the extensions. -/

namespace Sys2Proof.Machine

open Sys2Proof.Claims

/-! ### What every part of a cycle keeps -/

/-- A walk keeps the parameters. -/
theorem cfg_stringWalk (emit : Word → List Byte) (n : Nat) (a : Word) (s : State) :
    (stringWalk emit n a s).2.cfg = s.cfg := by
  obtain ⟨-, -, -, -, -, -, hcfg⟩ := stringWalk_frame emit n a s
  exact hcfg

/-- A walk opens and closes no cycle. -/
theorem busy_stringWalk (emit : Word → List Byte) (n : Nat) (a : Word) (s : State) :
    (stringWalk emit n a s).2.busy = s.busy := by
  obtain ⟨-, -, -, -, -, hbusy, -⟩ := stringWalk_frame emit n a s
  exact hbusy

/-- From `s` to `t` the parameters stay as they are, and memory in canonical form stays in it. -/
structure KeepsData (s t : State) : Prop where
  cfg : t.cfg = s.cfg
  wf : s.mem.wf = true → t.mem.wf = true

namespace KeepsData

variable {s t u : State}

theorem of_eq (hm : t.mem = s.mem) (hc : t.cfg = s.cfg) : KeepsData s t := ⟨hc, fun h => hm ▸ h⟩

theorem trans (h : KeepsData s t) (h' : KeepsData t u) : KeepsData s u :=
  ⟨h'.cfg.trans h.cfg, fun hs => h'.wf (h.wf hs)⟩

theorem inv (h : KeepsData s t) (hs : s.Inv) : t.Inv := by
  obtain ⟨hm, hd⟩ := hs
  exact ⟨h.wf hm, by rwa [h.cfg]⟩

theorem memRead (s : State) (a : Word) : KeepsData s (s.memRead a).2 := ⟨s.cfg_memRead a, s.wf_memRead a⟩

theorem memWrite (s : State) (a v : Word) : KeepsData s (s.memWrite a v) := ⟨rfl, Memory.wf_write a v⟩

theorem loadResult (s : State) (dr : Reg) (a : Word) : KeepsData s (s.loadResult dr a) :=
  (memRead s a).trans (of_eq rfl rfl)

theorem fetch (s : State) : KeepsData s s.fetch.2 := (memRead s s.pc).trans (of_eq rfl rfl)

theorem stringWalk (emit : Word → List Byte) (n : Nat) (a : Word) (s : State) :
    KeepsData s (stringWalk emit n a s).2 :=
  ⟨cfg_stringWalk emit n a s, wf_stringWalk⟩

end KeepsData

@[simp] theorem State.busy_loadResult (s : State) (dr : Reg) (a : Word) : (s.loadResult dr a).busy = s.busy := by
  simp [loadResult_eq]

/-! ### What a cycle can do -/

/-- The two ways in which a meaning answers from `s`: with a whole cycle, or as one of the routines that may wait or
walk for ever does, after a part that keeps the cycle and the engine state as they are. -/
inductive Answers (s : State) (o : Host.Outcome State Fault Refusal) : Prop
  | whole (t : State) (ho : o = .next t) (hd : KeepsData s t) (hb : t.busy = s.busy)
  | routine (b : Busy) (u : State) (ho : o = resume b u) (hd : KeepsData s u) (hb : u.busy = s.busy)
      (hr : u.run = s.run)

/-- TRAP's linkage, then a routine that may wait or walk for ever. -/
theorem Answers.afterEntry (b : Busy) (s : State) : Answers s (resume b s.trapEntry) :=
  .routine b _ rfl (.of_eq rfl rfl) rfl rfl

/-- TRAP's linkage and IN's prompt, then the wait. -/
theorem answers_inRoutine (s : State) : Answers s (inRoutine s.trapEntry) :=
  .routine .inChar _ rfl (.of_eq rfl rfl) rfl rfl

/-- Everything the generic row TRAP can do. -/
theorem execTrap_answers (vec : BitVec 8) (s : State) : Answers s (execTrap vec s) := by
  unfold execTrap
  dsimp only
  split_ifs
  · exact .afterEntry .getc s
  · exact .whole _ rfl (.of_eq rfl rfl) rfl
  · exact .afterEntry (.puts _) s
  · exact answers_inRoutine s
  · exact .afterEntry (.putsp _) s
  · exact .whole _ rfl (.of_eq rfl rfl) rfl
  · exact .whole _ rfl (.of_eq rfl rfl) rfl

/-- Everything an instruction can do: only loads, stores and the routines touch memory, only the routines can leave
their cycle open. -/
theorem exec_answers (i : Instr) (s : State) : Answers s (exec i s) := by
  cases i with
  | addReg | addImm | andReg | andImm | not | jmp | jsr | jsrr | lea | out | halt | trapUnknown80 | trapUnknown40
  | trapUnknown00 | trapUnknown30 | trapUnknown28 | trapUnknown26 | rti | res =>
    exact .whole _ rfl (.of_eq rfl rfl) rfl
  | br nzp off9 => refine .whole _ rfl (.of_eq ?_ ?_) ?_ <;> split <;> rfl
  | ld | ldr => exact .whole _ rfl (.loadResult ..) (State.busy_loadResult ..)
  | ldi => exact .whole _ rfl ((KeepsData.memRead ..).trans (.loadResult ..)) (by simp)
  | st | str => exact .whole _ rfl (.memWrite ..) rfl
  | sti => exact .whole _ rfl ((KeepsData.memRead ..).trans (.memWrite ..)) (by simp)
  | trap vec => exact execTrap_answers vec s
  | getc => exact .afterEntry .getc s
  | puts => exact .afterEntry (.puts _) s
  | inChar => exact answers_inRoutine s
  | putsp => exact .afterEntry (.putsp _) s

/-- Everything a step in RUNNING can do: what an instruction or a routine does, from a state with no open cycle. -/
theorem step_answers {s : State} (hr : s.run = .running) :
    ∃ u, KeepsData s u ∧ u.busy = none ∧ u.run = .running ∧ Answers u (step s) := by
  cases hb : s.busy with
  | none =>
    rw [step_idle hr hb]
    exact ⟨_, .fetch s, by simp [hb], by simp [hr], exec_answers ..⟩
  | some b =>
    rw [step_busy hr hb]
    exact ⟨{ s with busy := none }, .of_eq rfl rfl, rfl, hr, .routine b _ rfl (.of_eq rfl rfl) rfl rfl⟩

/-- A step that answers a next state is a step in RUNNING (R18). -/
theorem running_of_step {s t : State} (h : step s = .next t) : s.run = .running := by
  unfold step at h
  split at h
  · assumption
  · cases h
  · cases h

/-! ### Every step keeps the data invariant -/

/-- A string routine keeps the parameters and the canonical form, whether its walk ends or not. -/
theorem stringRoutine_keepsData (emit : Word → List Byte) (more : Word → Busy) (a : Word) {s t : State}
    (h : stringRoutine emit more a s = .next t) : KeepsData s t := by
  have hw := KeepsData.stringWalk emit (walkFuel s) a s
  obtain ⟨-, e⟩ | ⟨b, -, e⟩ := stringRoutine_cases emit more a s
  · cases h.symm.trans e
    exact hw
  · cases h.symm.trans e
    exact hw.trans (.of_eq rfl rfl)

/-- A routine that may wait or walk for ever keeps the parameters and the canonical form. -/
theorem resume_keepsData {b : Busy} {s t : State} (h : resume b s = .next t) : KeepsData s t := by
  cases b with
  | getc =>
    obtain ⟨c, e, -, ho⟩ | ⟨-, ho⟩ := getcRoutine_cases s <;> cases h.symm.trans ho <;> exact .of_eq rfl rfl
  | inChar =>
    obtain ⟨c, e, -, ho⟩ | ⟨-, ho⟩ := inReceive_cases s <;> cases h.symm.trans ho <;> exact .of_eq rfl rfl
  | puts a => exact stringRoutine_keepsData putsEmit .puts a h
  | putsp a => exact stringRoutine_keepsData putspEmit .putsp a h

theorem step_keepsData {s t : State} (h : step s = .next t) : KeepsData s t := by
  obtain ⟨u, hu, -, -, ha⟩ := step_answers (running_of_step h)
  cases ha with
  | whole t' ho hd _ =>
    cases h.symm.trans ho
    exact hu.trans hd
  | routine b u' ho hd _ _ => exact (hu.trans hd).trans (resume_keepsData (ho.symm.trans h))

/-- Settles O51: each read, write and output of a cycle keeps the parameters and the canonical form. -/
theorem stepKeepsTheDataInvariant : Obligations.StepKeepsTheDataInvariant := fun _ _ hs h =>
  have hk := step_keepsData h
  ⟨hk.inv hs, hk.cfg⟩

/-! ### A cycle that is never over -/

/-- A string walk that has no end: it does not stop within any number of Words. -/
def NeverEnds (emit : Word → List Byte) (a : Word) (s : State) : Prop :=
  ∀ n, (stringWalk emit n a s).1 ≠ none

/-- The routine can never end from `s`: INPUT is empty for ever, or the walk has no end. -/
def NeverOver : Busy → State → Prop
  | .getc, s => s.env.kbdGet = none
  | .inChar, s => s.env.kbdGet = none
  | .puts a, s => NeverEnds putsEmit a s
  | .putsp a, s => NeverEnds putspEmit a s

/-- From `s` to `t` the registers, pc, flag, ir and engine state stay as they are. -/
structure SameRegisters (s t : State) : Prop where
  regs : t.regs = s.regs
  pc : t.pc = s.pc
  cond : t.cond = s.cond
  ir : t.ir = s.ir
  run : t.run = s.run

theorem SameRegisters.trans {s t u : State} (h : SameRegisters s t) (h' : SameRegisters t u) : SameRegisters s u :=
  ⟨h'.regs.trans h.regs, h'.pc.trans h.pc, h'.cond.trans h.cond, h'.ir.trans h.ir, h'.run.trans h.run⟩

/-- A read does not look at the open cycle. -/
theorem State.memRead_withBusy (s : State) (b : Option Busy) (a : Word) :
    State.memRead { s with busy := b } a = ((s.memRead a).1, { (s.memRead a).2 with busy := b }) := by
  have hp : State.pollKeyboard { s with busy := b } = { s.pollKeyboard with busy := b } := by
    cases h : s.env.kbdPoll.1 with
    | none => rw [pollKeyboard_none h, pollKeyboard_none (s := { s with busy := b }) h]
    | some c => rw [pollKeyboard_some h, pollKeyboard_some (s := { s with busy := b }) h]
  by_cases ha : a = s.cfg.kbsrAddr
  · subst ha
    rw [memRead_status, show s.cfg.kbsrAddr = ({ s with busy := b } : State).cfg.kbsrAddr from rfl, memRead_status, hp]
  · rw [memRead_plain s ha, memRead_plain { s with busy := b } ha]

/-- A walk does not look at the open cycle. -/
theorem stringWalk_withBusy (emit : Word → List Byte) (n : Nat) (a : Word) (s : State) (b : Option Busy) :
    stringWalk emit n a { s with busy := b } =
      ((stringWalk emit n a s).1, { (stringWalk emit n a s).2 with busy := b }) := by
  induction n generalizing a s with
  | zero => rfl
  | succ n ih =>
    simp only [stringWalk_succ, State.memRead_withBusy]
    split
    · rfl
    · exact ih (a + 1) ((s.memRead a).2.conOut _)

theorem neverEnds_withBusy {emit : Word → List Byte} {a : Word} {s : State} (b : Option Busy) :
    NeverEnds emit a { s with busy := b } ↔ NeverEnds emit a s := by
  simp [NeverEnds, stringWalk_withBusy]

@[simp] theorem neverOver_withBusy {b : Busy} {s : State} (b' : Option Busy) :
    NeverOver b { s with busy := b' } ↔ NeverOver b s := by
  cases b with
  | getc | inChar => exact Iff.rfl
  | puts | putsp => exact neverEnds_withBusy b'

/-- A walk without an end has none from where some part of it has come to. -/
theorem NeverEnds.tail {emit : Word → List Byte} {a c : Word} {s t : State} {m : Nat} (h : NeverEnds emit a s)
    (hw : stringWalk emit m a s = (some c, t)) : NeverEnds emit c t := fun n => by
  have hn := h (m + n)
  rwa [stringWalk_add, hw] at hn

/-- A string routine whose walk has no end leaves its cycle open where the rest of the walk has none, and changes no
register. -/
theorem stringRoutine_neverEnds {emit : Word → List Byte} (more : Word → Busy) {a : Word} {s : State}
    (h : NeverEnds emit a s) :
    ∃ c t, stringRoutine emit more a s = .next { t with busy := some (more c) } ∧ NeverEnds emit c t ∧
      SameRegisters s t := by
  obtain ⟨hn, -⟩ | ⟨c, hc, e⟩ := stringRoutine_cases emit more a s
  · exact absurd hn (h _)
  · obtain ⟨hregs, hpc, hcond, hir, hrun, -, -⟩ := stringWalk_frame emit (walkFuel s) a s
    exact ⟨c, _, e, h.tail (Prod.ext hc rfl), hregs, hpc, hcond, hir, hrun⟩

/-- A string routine whose walk ends closes its cycle. -/
theorem stringRoutine_of_not_neverEnds {emit : Word → List Byte} (more : Word → Busy) {a : Word} {s : State}
    (h : ¬ NeverEnds emit a s) : ∃ t, stringRoutine emit more a s = .next t ∧ t.busy = s.busy := by
  obtain ⟨k, hk⟩ : ∃ k, (stringWalk emit k a s).1 = none := by simpa [NeverEnds] using h
  exact ⟨_, stringRoutine_ends emit more hk, busy_stringWalk emit k a s⟩

/-- A routine that can never end leaves its cycle open with a routine that can never end, and changes no register. -/
theorem resume_neverOver {b : Busy} {s : State} (h : NeverOver b s) :
    ∃ b' t, resume b s = .next { t with busy := some b' } ∧ NeverOver b' t ∧ SameRegisters s t := by
  cases b with
  | getc =>
    obtain ⟨c, e, hg, -⟩ | ⟨-, ho⟩ := getcRoutine_cases s
    · cases hg.symm.trans h
    · exact ⟨.getc, s, ho, h, rfl, rfl, rfl, rfl, rfl⟩
  | inChar =>
    obtain ⟨c, e, hg, -⟩ | ⟨-, ho⟩ := inReceive_cases s
    · cases hg.symm.trans h
    · exact ⟨.inChar, s, ho, h, rfl, rfl, rfl, rfl, rfl⟩
  | puts a =>
    obtain ⟨c, t, ho⟩ := stringRoutine_neverEnds .puts h
    exact ⟨.puts c, t, ho⟩
  | putsp a =>
    obtain ⟨c, t, ho⟩ := stringRoutine_neverEnds .putsp h
    exact ⟨.putsp c, t, ho⟩

/-- A routine that can end does so in one step. -/
theorem resume_of_not_neverOver {b : Busy} {s : State} (h : ¬ NeverOver b s) :
    ∃ t, resume b s = .next t ∧ t.busy = s.busy := by
  cases b with
  | getc =>
    obtain ⟨c, e, -, ho⟩ | ⟨hg, -⟩ := getcRoutine_cases s
    · exact ⟨_, ho, rfl⟩
    · exact absurd hg h
  | inChar =>
    obtain ⟨c, e, -, ho⟩ | ⟨hg, -⟩ := inReceive_cases s
    · exact ⟨_, ho, rfl⟩
    · exact absurd hg h
  | puts a => exact stringRoutine_of_not_neverEnds .puts h
  | putsp a => exact stringRoutine_of_not_neverEnds .putsp h

/-- A state inside a cycle that can never be over. -/
structure OpenForever (s : State) : Prop where
  run : s.run = .running
  busy : ∃ b, s.busy = some b ∧ NeverOver b s

/-- A step leaves a cycle open only if it can never be over (log 7, log 8). -/
theorem openForever_of_step {s t : State} (h : step s = .next t) (ht : t.busy ≠ none) : OpenForever t := by
  obtain ⟨u, -, hub, hur, ha⟩ := step_answers (running_of_step h)
  cases ha with
  | whole t' ho _ hb =>
    cases h.symm.trans ho
    exact absurd (hb.trans hub) ht
  | routine b v ho _ hvb hvr =>
    by_cases hn : NeverOver b v
    · obtain ⟨b', w, hw, hn', hs⟩ := resume_neverOver hn
      cases h.symm.trans (ho.trans hw)
      exact ⟨hs.run.trans (hvr.trans hur), b', rfl, (neverOver_withBusy _).2 hn'⟩
    · obtain ⟨w, hw, hwb⟩ := resume_of_not_neverOver hn
      cases h.symm.trans (ho.trans hw)
      exact absurd (hwb.trans (hvb.trans hub)) ht

/-- A step in a cycle that can never be over stays in such a cycle, and changes no register. -/
theorem OpenForever.step {s : State} (h : OpenForever s) :
    ∃ t, step s = .next t ∧ OpenForever t ∧ SameRegisters s t := by
  obtain ⟨hr, b, hb, hn⟩ := h
  obtain ⟨b', t, ho, -, ht⟩ := resume_neverOver ((neverOver_withBusy none).2 hn)
  have hs := (step_busy hr hb).trans ho
  exact ⟨_, hs, openForever_of_step hs (by simp), ht.regs, ht.pc, ht.cond, ht.ir, ht.run⟩

/-- A run whose first step answers a next state goes on from there. -/
theorem core_run_succ {M : Host.Core} {s t : M.State} (k : Nat) (h : M.step s = .next t) :
    M.run (k + 1) s = M.run k t := by
  rw [Host.Core.run, h]

/-- Any number of steps in a cycle that can never be over stays in such a cycle, and changes no register. -/
theorem OpenForever.core_run {s : State} (h : OpenForever s) (k : Nat) :
    ∃ t : State, Sys2Proof.core.run k s = .next t ∧ OpenForever t ∧ SameRegisters s t := by
  induction k generalizing s with
  | zero => exact ⟨s, rfl, h, rfl, rfl, rfl, rfl, rfl⟩
  | succ k ih =>
    obtain ⟨t, hs, ht, hst⟩ := h.step
    obtain ⟨u, hr, hu, htu⟩ := ih ht
    exact ⟨u, (core_run_succ k hs).trans hr, hu, hst.trans htu⟩

/-- Settles O57: a step leaves a cycle open only if it can never be over, and by induction on the number of steps it
stays so. -/
theorem openCycleIsNeverOver : Obligations.OpenCycleIsNeverOver := by
  intro s t k _ hs ht
  obtain ⟨u, hu, ⟨hrun, b, hb, -⟩, hsame⟩ := (openForever_of_step hs ht).core_run k
  exact ⟨u, hu, by simp [hb], hrun, hsame.regs, hsame.pc, hsame.cond, hsame.ir⟩

/-! ### A poll of the keyboard -/

/-- What `KbdGet` takes and what it leaves of INPUT depend on what is left of INPUT alone. -/
theorem kbdGet_of_inputLeft_eq {e e₁ : Env} (h : inputLeft e = inputLeft e₁) :
    e.kbdGet.map (Prod.map id inputLeft) = e₁.kbdGet.map (Prod.map id inputLeft) := by
  obtain ⟨input, inputOpen, draws, fails, sinceFail, nuls, sinceNul, output⟩ := e
  obtain ⟨rfl, rfl, rfl, rfl⟩ := by simpa [inputLeft] using h
  cases hi : e₁.input with
  | nil => cases ho : e₁.inputOpen <;> simp [Env.kbdGet, hi, ho, inputLeft, Env.freeChar, Env.takeFree, Env.nulNext]
  | cons c cs => simp [Env.kbdGet, hi, inputLeft]

/-- The character `KbdGet` takes depends on what is left of INPUT alone. -/
theorem kbdGet_char_of_inputLeft_eq {e e₁ : Env} (h : inputLeft e = inputLeft e₁) :
    e.kbdGet.map Prod.fst = e₁.kbdGet.map Prod.fst := by
  have h' := congrArg (Option.map Prod.fst) (kbdGet_of_inputLeft_eq h)
  simpa [Option.map_map, Function.comp_def] using h'

/-- A draw leaves INPUT as it is. -/
@[simp] theorem inputLeft_draw (e : Env) : inputLeft e.draw.2 = inputLeft e := by
  unfold Env.draw
  split <;> rfl

/-- A poll answers `none` and leaves INPUT as it was, or takes what `KbdGet` would take. -/
theorem kbdPoll_inputLeft (e : Env) :
    (e.kbdPoll.1 = none ∧ inputLeft e.kbdPoll.2 = inputLeft e) ∨
    (∃ c e', e.kbdPoll.1 = some c ∧ e.kbdGet = some (c, e') ∧ inputLeft e.kbdPoll.2 = inputLeft e') := by
  obtain h | ⟨c, e₁, -, hg, h⟩ := e.kbdPoll_cases
  · exact .inl (by simp [h])
  · have hm := kbdGet_of_inputLeft_eq (inputLeft_draw e)
    rw [hg] at hm
    obtain ⟨⟨c', e'⟩, hg', he⟩ := Option.map_eq_some_iff.1 hm.symm
    obtain ⟨rfl, hl⟩ := Prod.mk.inj he
    exact .inr ⟨c', e', by simp [h], hg', by simpa [h] using hl.symm⟩

/-- A failing draw makes the poll answer `none`. -/
theorem kbdPoll_draw_false (e : Env) (ds : List Bool) : ({ e with draws := false :: ds } : Env).kbdPoll.1 = none := by
  simp [Env.kbdPoll, Env.draw]

/-- A succeeding draw makes the poll take the character `KbdGet` would take. -/
theorem kbdPoll_draw_true (e : Env) (ds : List Bool) :
    ({ e with draws := true :: ds } : Env).kbdPoll.1 = e.kbdGet.map Prod.fst := by
  have hd : ({ e with draws := true :: ds } : Env).draw = (true, { e with draws := ds }) := rfl
  rw [← kbdGet_char_of_inputLeft_eq (e := { e with draws := ds }) (e₁ := e) rfl]
  cases hg : ({ e with draws := ds } : Env).kbdGet <;> simp [Env.kbdPoll, hd, hg]

/-- Settles O13: `KbdGet` depends on what is left of INPUT alone, and a draw may fail or succeed. -/
theorem pollIsADrawOverTheFirstCharacter : Obligations.PollIsADrawOverTheFirstCharacter := by
  intro e
  obtain ⟨hout, hopen, -⟩ := e.kbdPoll_frame
  refine ⟨hout, hopen, kbdPoll_inputLeft e, fun hn => ?_, fun c cs => Env.kbdGet_cons, fun hi ho => ⟨?_, rfl⟩,
    fun hi ho => Env.kbdGet_eq_none.2 ⟨hi, ho⟩, ⟨[false], kbdPoll_draw_false e []⟩,
    fun c e' hg => ⟨[true], by rw [kbdPoll_draw_true, hg]; rfl⟩⟩
  · obtain ⟨-, hl⟩ | ⟨c, e', hs, -⟩ := kbdPoll_inputLeft e
    · exact kbdGet_char_of_inputLeft_eq hl
    · cases hn.symm.trans hs
  · simp [Env.kbdGet, hi, ho]

/-! ### The extensions -/

/-- A sign extension is the same two's-complement number. -/
theorem toInt_sext {n : Nat} (hn : n ≤ 16) (v : BitVec n) : (sext v).toInt = v.toInt :=
  BitVec.toInt_signExtend_of_le hn

/-- A sign extension as an unsigned number: the bits above the field are its top bit. -/
theorem toNat_sext {n : Nat} (hn : n ≤ 16) (v : BitVec n) :
    (sext v).toNat = if v.getLsbD (n - 1) then v.toNat + (65536 - 2 ^ n) else v.toNat := by
  have hlt : v.toNat < 2 ^ 16 := v.isLt.trans_le (Nat.pow_le_pow_right (by decide) hn)
  rw [sext, BitVec.toNat_signExtend, BitVec.toNat_setWidth, Nat.mod_eq_of_lt hlt, BitVec.msb_eq_getLsbD_last]
  split <;> rfl

theorem toNat_zext (c : Byte) : (zext c).toNat = c.toNat := BitVec.toNat_setWidth_of_le (by decide)

/-- Settles O17, by the values of an extension from any width. -/
theorem signExtensionReplicatesTheTopBit : Obligations.SignExtensionReplicatesTheTopBit :=
  ⟨fun v => ⟨toInt_sext (by decide) v, toNat_sext (by decide) v⟩,
    fun v => ⟨toInt_sext (by decide) v, toNat_sext (by decide) v⟩,
    fun v => ⟨toInt_sext (by decide) v, toNat_sext (by decide) v⟩,
    fun v => ⟨toInt_sext (by decide) v, toNat_sext (by decide) v⟩, toNat_zext⟩

/-! ### The state after reset -/

/-- Settles O52: memory is empty, and the default addresses differ. -/
theorem resetMeetsTheDataInvariant : Obligations.ResetMeetsTheDataInvariant := ⟨Memory.wf_nil, by decide⟩

end Sys2Proof.Machine
end

section
/-! PROOFS. The statements about spec/10_state.md: the cycle, what each kind of instruction writes, and the engine
state. -/

namespace Sys2Proof.Machine

open Sys2Proof.Claims

/-! ### The cycle and the state after reset -/

/-- The whole fetch: the read at the old pc, `ir` the Word read, pc one further (R19). -/
theorem State.fetch_eq (s : State) :
    s.fetch = ((s.memRead s.pc).1, { (s.memRead s.pc).2 with ir := (s.memRead s.pc).1, pc := s.pc + 1 }) := by
  simp [fetch]

/-- In HALTED no step exists (R18, R19). -/
theorem step_halted {s : State} (h : s.run = .halted) : step s = .refused .halted := by simp [step, h]

/-- In FATAL no step exists (R18, R19). -/
theorem step_fatal {s : State} {cause : FatalCause} (h : s.run = .fatal cause) : step s = .fault (.fatal cause) := by
  simp [step, h]

/-- Settles O6: a step with no open cycle is the fetch and the meaning of the Word fetched, and only RUNNING has one. -/
theorem stepFetchesIncrementsDecodesExecutes : Obligations.StepFetchesIncrementsDecodesExecutes :=
  ⟨fun s hr hb => by rw [step_idle hr hb, s.fetch_eq], fun s hr hb hpc => by rw [step_idle hr hb, s.fetch_plain hpc],
    fun _ _ hr h => hr (running_of_step h)⟩

/-- Settles O7, by the two engine states in which no step exists. -/
theorem noStepLeavesHaltedOrFatal : Obligations.NoStepLeavesHaltedOrFatal :=
  ⟨fun _ => step_halted, fun _ _ => step_fatal⟩

/-- Settles O9: the fetch reads the Word just placed at pc. -/
theorem placedWordIsRunNext : Obligations.PlacedWordIsRunNext := by
  intro s w hpc hw
  have hstep := step_idle (s := s.withFetchWord 16 w) rfl rfl
  rw [State.fetch_plain (s.withFetchWord 16 w) hpc] at hstep
  simpa [State.withFetchWord, Nat.mod_eq_of_lt hw] using hstep

/-- Settles O53: `resetWith` sets each field to its parameter, and the default parameters are R5's. -/
theorem resetStateIsAsParametersSay : Obligations.ResetStateIsAsParametersSay :=
  ⟨fun _ => ⟨rfl, rfl, rfl, fun _ => rfl, fun _ => rfl, rfl, rfl, rfl, rfl, rfl⟩, rfl, rfl, fun _ => rfl, rfl⟩

/-! ### The kinds of instructions -/

/-- What an instruction writes of the registers, pc, the flag and the engine state, as a kind: a flag-setting one with
its destination, a store, a jump, a call, TRAP with its vector, or an undefined opcode. -/
inductive Kind where
  | result (dr : Reg)
  | store
  | jump
  | call
  | trap (vec : BitVec 8)
  | undefined

/-- The kind of an instruction. -/
def kindOf : Instr → Kind
  | .addReg dr _ _ | .addImm dr _ _ | .andReg dr _ _ | .andImm dr _ _ | .not dr _ => .result dr
  | .ld dr _ | .ldi dr _ | .ldr dr _ _ | .lea dr _ => .result dr
  | .st _ _ | .sti _ _ | .str _ _ _ => .store
  | .br _ _ | .jmp _ => .jump
  | .jsr _ | .jsrr _ => .call
  | .trap vec => .trap vec
  | .getc => .trap 0x20#8
  | .out => .trap 0x21#8
  | .puts => .trap 0x22#8
  | .inChar => .trap 0x23#8
  | .putsp => .trap 0x24#8
  | .halt => .trap 0x25#8
  | .trapUnknown80 v => .trap (0b1#1 ++ v)
  | .trapUnknown40 v => .trap (0b01#2 ++ v)
  | .trapUnknown00 v => .trap (0b000#3 ++ v)
  | .trapUnknown30 v => .trap (0b0011#4 ++ v)
  | .trapUnknown28 v => .trap (0b00101#5 ++ v)
  | .trapUnknown26 v => .trap (0b0010011#7 ++ v)
  | .rti | .res => .undefined

/-- The destination of the flag-setting kind. -/
def Kind.dest : Kind → Option Reg
  | .result dr => some dr
  | _ => none

/-- The registers a kind of instruction may write (R13). -/
def Kind.mayWrite : Kind → Reg → Prop
  | .result dr, r => r = dr
  | .call, r => r = 7
  | .trap vec, r => r = 7 ∨ ((vec = 0x20#8 ∨ vec = 0x23#8) ∧ r = 0)
  | _, _ => False

theorem flagDest_eq_dest (i : Instr) : flagDest i = (kindOf i).dest := by cases i <;> rfl

theorem kindOf_of_not_isControl {i : Instr} (h : isControl i = false) : kindOf i ≠ .jump ∧ kindOf i ≠ .call := by
  cases i with
  | br | jmp | jsr | jsrr => cases h
  | _ => exact ⟨nofun, nofun⟩

theorem kindOf_eq_undefined_iff {i : Instr} : kindOf i = .undefined ↔ i = .res ∨ i = .rti := by
  cases i with
  | rti | res => simp [kindOf]
  | _ => exact ⟨nofun, nofun⟩

theorem links_of_call {i : Instr} (h : kindOf i = .call) : links i = true := by
  cases i with
  | jsr | jsrr => rfl
  | _ => cases h

theorem links_of_trap {i : Instr} {vec : BitVec 8} (h : kindOf i = .trap vec) : links i = true := by
  cases i with
  | addReg | addImm | andReg | andImm | not | br | jmp | ld | ldi | ldr | lea | st | sti | str | rti | res => cases h
  | _ => rfl

/-! ### TRAP by its vector -/

/-- No vector whose high bits are `a` selects a routine, if the block of them lies outside 0x20..0x25. -/
theorem not_knownVector_append {m n : Nat} {a : BitVec m} (b : BitVec n)
    (h : (a.toNat + 1) * 2 ^ n ≤ 0x20 ∨ 0x25 < a.toNat * 2 ^ n) :
    ¬ (0x20 ≤ (a ++ b).toNat ∧ (a ++ b).toNat ≤ 0x25) := by
  have hb := b.isLt
  rw [BitVec.toNat_append, ← Nat.shiftLeft_add_eq_or_of_lt hb, Nat.shiftLeft_eq]
  rw [Nat.add_mul] at h
  omega

/-- A vector outside 0x20..0x25 is none of the six. -/
theorem ne_of_not_knownVector {vec v : BitVec 8} (h : ¬ knownVector vec) (hv : 0x20 ≤ v.toNat ∧ v.toNat ≤ 0x25) :
    vec ≠ v := by
  rintro rfl
  exact h hv

/-- TRAP with a vector that selects no routine (R107). -/
theorem execTrap_unknown {vec : BitVec 8} (h : ¬ knownVector vec) (s : State) :
    execTrap vec s = unknownVector vec s.trapEntry := by
  have hne : ∀ v : BitVec 8, (0x20 ≤ v.toNat ∧ v.toNat ≤ 0x25) → vec ≠ v := fun _ => ne_of_not_knownVector h
  simp [execTrap, hne]

theorem execTrap_puts (s : State) : execTrap 0x22#8 s = execPuts s := by simp [execTrap, execPuts]

theorem execTrap_putsp (s : State) : execTrap 0x24#8 s = execPutsp s := by simp [execTrap, execPutsp]

/-- Every form of TRAP means what the generic row means with its vector (R100). -/
theorem exec_eq_execTrap {i : Instr} {vec : BitVec 8} (h : kindOf i = .trap vec) (s : State) :
    exec i s = execTrap vec s := by
  cases i with
  | addReg | addImm | andReg | andImm | not | br | jmp | jsr | jsrr | ld | ldi | ldr | lea | st | sti | str | rti
  | res => cases h
  | trap | getc | out | inChar | halt => cases h; rfl
  | puts => cases h; exact (execTrap_puts s).symm
  | putsp => cases h; exact (execTrap_putsp s).symm
  | trapUnknown80 v | trapUnknown40 v | trapUnknown00 v | trapUnknown30 v | trapUnknown28 v | trapUnknown26 v =>
    cases h
    exact (execTrap_unknown (not_knownVector_append v (by decide)) s).symm

/-- The forms of TRAP with the vector of GETC or IN are those R13 names for R0. -/
theorem readsChar_of_trap {i : Instr} {vec : BitVec 8} (h : kindOf i = .trap vec) (hv : vec = 0x20#8 ∨ vec = 0x23#8) :
    readsChar i := by
  have hknown : knownVector vec := by obtain rfl | rfl := hv <;> exact ⟨by decide, by decide⟩
  cases i with
  | addReg | addImm | andReg | andImm | not | br | jmp | jsr | jsrr | ld | ldi | ldr | lea | st | sti | str | rti
  | res => cases h
  | getc => exact .inl rfl
  | inChar => exact .inr (.inl rfl)
  | trap => cases h; exact .inr (.inr (hv.imp (congrArg _) (congrArg _)))
  | out | puts | putsp | halt => cases h; simp at hv
  | trapUnknown80 v | trapUnknown40 v | trapUnknown00 v | trapUnknown30 v | trapUnknown28 v | trapUnknown26 v =>
    cases h
    exact absurd hknown (not_knownVector_append v (by decide))

/-- What a kind of instruction may write is what R13 names for each instruction of it. -/
theorem mayWrite_of_kind {i : Instr} {k : Kind} {r : Reg} (hk : kindOf i = k) (h : k.mayWrite r) : mayWrite i r := by
  cases k with
  | result dr => exact .inl (by rw [flagDest_eq_dest, hk, show r = dr from h]; rfl)
  | call => exact .inr (.inl ⟨links_of_call hk, h⟩)
  | trap vec =>
    obtain h7 | ⟨hv, h0⟩ := h
    · exact .inr (.inl ⟨links_of_trap hk, h7⟩)
    · exact .inr (.inr ⟨readsChar_of_trap hk hv, h0⟩)
  | store | jump | undefined => cases h

/-- The bits above the lowest `n`, put before those, give the whole. -/
theorem append_low {m n : Nat} {v : BitVec (m + n)} {a : BitVec m} (h : v.extractLsb' n m = a) :
    a ++ v.extractLsb' 0 n = v := by
  rw [← h, BitVec.extractLsb'_append_extractLsb']

/-- The row a vector selects is a form of TRAP with that vector (R100, R107): six rows by name, five by the bits they
ask for, and 0x26 and 0x27 are what is left. -/
theorem kindOf_decodeTrap (vec : BitVec 8) : kindOf (decodeTrap vec) = .trap vec := by
  unfold decodeTrap
  iterate 6 refine iteInduction (motive := (kindOf · = .trap vec)) (fun h => by rw [h]; rfl) fun _ => ?_
  iterate 5
    refine iteInduction (motive := (kindOf · = .trap vec)) (fun h => congrArg Kind.trap (append_low h)) fun _ => ?_
  refine congrArg Kind.trap (append_low (m := 7) ?_)
  simp only [← BitVec.toNat_inj, BitVec.extractLsb'_toNat, Nat.shiftRight_eq_div_pow, BitVec.toNat_ofNat] at *
  omega

/-- Opcode 0b1111 is TRAP, whatever bits 11..8 are. -/
theorem decode_of_trap {w : Word} (h : w.extractLsb' 12 4 = 0b1111#4) : decode w = decodeTrap (w.extractLsb' 0 8) := by
  simp [decode, h]

/-- A Word with another opcode is no TRAP. -/
theorem kindOf_decode_ne_trap {w : Word} (h : w.extractLsb' 12 4 ≠ 0b1111#4) (vec : BitVec 8) :
    kindOf (decode w) ≠ .trap vec := by
  unfold decode
  dsimp only
  split
  case h_14 hw => exact absurd hw h
  case h_1 | h_2 | h_6 => split <;> exact nofun
  all_goals exact nofun

/-- A Word is a TRAP exactly if its opcode says so, and its vector is bits 7..0 (R51, R55). -/
theorem kindOf_decode_eq_trap_iff {w : Word} {vec : BitVec 8} :
    kindOf (decode w) = .trap vec ↔ w.extractLsb' 12 4 = 0b1111#4 ∧ w.extractLsb' 0 8 = vec := by
  by_cases h : w.extractLsb' 12 4 = 0b1111#4
  · simp [decode_of_trap h, kindOf_decodeTrap, h]
  · simp [kindOf_decode_ne_trap h, h]

/-! ### What an instruction of each kind does -/

theorem SameRegisters.refl (s : State) : SameRegisters s s := ⟨rfl, rfl, rfl, rfl, rfl⟩

theorem SameRegisters.reg {s t : State} (h : SameRegisters s t) (r : Reg) : t.reg r = s.reg r := by
  rw [← State.getElem_regs, ← State.getElem_regs, h.regs]

theorem sameRegisters_memRead (s : State) (a : Word) : SameRegisters s (s.memRead a).2 := by
  constructor <;> simp

theorem sameRegisters_memWrite (s : State) (a v : Word) : SameRegisters s (s.memWrite a v) := ⟨rfl, rfl, rfl, rfl, rfl⟩

theorem sameRegisters_conOut (s : State) (bs : List Byte) : SameRegisters s (s.conOut bs) := ⟨rfl, rfl, rfl, rfl, rfl⟩

theorem sameRegisters_withBusy (s : State) (b : Option Busy) : SameRegisters s { s with busy := b } :=
  ⟨rfl, rfl, rfl, rfl, rfl⟩

theorem sameRegisters_stringWalk (emit : Word → List Byte) (n : Nat) (a : Word) (s : State) :
    SameRegisters s (stringWalk emit n a s).2 := by
  obtain ⟨hregs, hpc, hcond, hir, hrun, -, -⟩ := stringWalk_frame emit n a s
  exact ⟨hregs, hpc, hcond, hir, hrun⟩

/-- What a routine that ends, waits or walks on can do: it changes no register, or, if it is GETC or IN, it puts a
character in R0. -/
inductive RoutineEffect (receives : Prop) (s t : State) : Prop
  | same (ht : SameRegisters s t)
  | character (c : Word) (hc : receives) (ht : SameRegisters (s.setReg 0 c) t)

/-- What TRAP can do after its linkage: what a routine does, or HALT's stop, or FATAL where there is no routine. -/
inductive TrapEffect (vec : BitVec 8) (s : State) : State → Prop
  | routine {t : State} (hv : knownVector vec ∧ vec ≠ 0x25#8) (ht : RoutineEffect (vec = 0x20#8 ∨ vec = 0x23#8) s t) :
    TrapEffect vec s t
  | halt {u : State} (hv : vec = 0x25#8) (hu : SameRegisters s u) : TrapEffect vec s u.halt
  | unknown (cause : FatalCause) (hv : ¬ knownVector vec) : TrapEffect vec s (s.raiseFatal cause)

/-- What an instruction of each kind can do to the registers, pc, the flag, ir and the engine state. -/
inductive Effect : Kind → State → State → Prop
  | result {s u : State} (dr : Reg) (v : Word) (hu : SameRegisters s u) : Effect (.result dr) s (u.writeResult dr v)
  | store {s t : State} (ht : SameRegisters s t) : Effect .store s t
  | jump (s : State) (w : Word) : Effect .jump s { s with pc := w }
  | call (s : State) (w : Word) : Effect .call s { s.setReg 7 s.pc with pc := w }
  | trap {vec : BitVec 8} {s t : State} (ht : TrapEffect vec s.trapEntry t) : Effect (.trap vec) s t
  | undefined (s : State) (cause : FatalCause) : Effect .undefined s (s.raiseFatal cause)

/-- GETC's routine puts a character in R0 or waits. -/
theorem getcRoutine_effect {receives : Prop} (hc : receives) (s : State) :
    ∃ t, getcRoutine s = .next t ∧ RoutineEffect receives s t := by
  obtain ⟨c, e, -, ho⟩ | ⟨-, ho⟩ := getcRoutine_cases s
  · exact ⟨_, ho, .character (zext c) hc ⟨rfl, rfl, rfl, rfl, rfl⟩⟩
  · exact ⟨_, ho, .same (sameRegisters_withBusy ..)⟩

/-- IN after some output puts a character in R0 or waits. -/
theorem inReceive_effect {receives : Prop} (hc : receives) {s u : State} (hu : ∃ bs, u = s.conOut bs) :
    ∃ t, inReceive u = .next t ∧ RoutineEffect receives s t := by
  obtain ⟨bs, rfl⟩ := hu
  obtain ⟨c, e, -, ho⟩ | ⟨-, ho⟩ := inReceive_cases (s.conOut bs)
  · exact ⟨_, ho, .character (zext c) hc ⟨rfl, rfl, rfl, rfl, rfl⟩⟩
  · exact ⟨_, ho, .same ⟨rfl, rfl, rfl, rfl, rfl⟩⟩

/-- A string routine changes no register, whether its walk ends or not. -/
theorem stringRoutine_effect {receives : Prop} (emit : Word → List Byte) (more : Word → Busy) (a : Word) (s : State) :
    ∃ t, stringRoutine emit more a s = .next t ∧ RoutineEffect receives s t := by
  have hw := sameRegisters_stringWalk emit (walkFuel s) a s
  obtain ⟨-, ho⟩ | ⟨b, -, ho⟩ := stringRoutine_cases emit more a s
  · exact ⟨_, ho, .same hw⟩
  · exact ⟨_, ho, .same (hw.trans (sameRegisters_withBusy ..))⟩

/-- Going on with an open cycle does what its routine does. -/
theorem resume_effect (b : Busy) (s : State) :
    ∃ t, resume b s = .next t ∧ RoutineEffect (b = .getc ∨ b = .inChar) s t := by
  cases b with
  | getc => exact getcRoutine_effect (.inl rfl) s
  | inChar => exact inReceive_effect (.inr rfl) ⟨[], by simp [State.conOut]⟩
  | puts a => exact stringRoutine_effect putsEmit .puts a s
  | putsp a => exact stringRoutine_effect putspEmit .putsp a s

/-- The vectors with a routine, one by one (R100). -/
theorem knownVector_cases {vec : BitVec 8} (h : knownVector vec) :
    vec = 0x20#8 ∨ vec = 0x21#8 ∨ vec = 0x22#8 ∨ vec = 0x23#8 ∨ vec = 0x24#8 ∨ vec = 0x25#8 := by
  unfold knownVector at h
  bv_omega

/-- TRAP, by its vector (R100, R107). -/
theorem execTrap_effect (vec : BitVec 8) (s : State) :
    ∃ t, execTrap vec s = .next t ∧ TrapEffect vec s.trapEntry t := by
  by_cases hv : knownVector vec
  · have hroutine : vec ≠ 0x25#8 →
        (∃ t, execTrap vec s = .next t ∧ RoutineEffect (vec = 0x20#8 ∨ vec = 0x23#8) s.trapEntry t) →
        ∃ t, execTrap vec s = .next t ∧ TrapEffect vec s.trapEntry t :=
      fun hne ⟨t, ho, ht⟩ => ⟨t, ho, .routine ⟨hv, hne⟩ ht⟩
    obtain rfl | rfl | rfl | rfl | rfl | rfl := knownVector_cases hv
    · exact hroutine (by decide) (getcRoutine_effect (.inl rfl) _)
    · exact hroutine (by decide) ⟨_, rfl, .same (sameRegisters_conOut ..)⟩
    · exact hroutine (by decide) (execTrap_puts s ▸ stringRoutine_effect putsEmit .puts _ _)
    · exact hroutine (by decide) (inReceive_effect (.inr rfl) ⟨_, rfl⟩)
    · exact hroutine (by decide) (execTrap_putsp s ▸ stringRoutine_effect putspEmit .putsp _ _)
    · exact ⟨_, rfl, .halt rfl (sameRegisters_conOut ..)⟩
  · exact ⟨_, execTrap_unknown hv s, .unknown _ hv⟩

/-- A form of TRAP does what its vector says. -/
theorem exec_effect_of_trap {i : Instr} {vec : BitVec 8} (hk : kindOf i = .trap vec) (s : State) :
    ∃ t, exec i s = .next t ∧ Effect (kindOf i) s t := by
  obtain ⟨t, ho, ht⟩ := execTrap_effect vec s
  exact ⟨t, (exec_eq_execTrap hk s).trans ho, hk ▸ .trap ht⟩

/-- Every instruction answers a next state, which is as its kind says. -/
theorem exec_effect (i : Instr) (s : State) : ∃ t, exec i s = .next t ∧ Effect (kindOf i) s t := by
  cases i with
  | addReg | addImm | andReg | andImm | not | lea => exact ⟨_, rfl, .result _ _ (.refl s)⟩
  | ld | ldr => exact ⟨_, rfl, .result _ _ (sameRegisters_memRead ..)⟩
  | ldi => exact ⟨_, rfl, .result _ _ ((sameRegisters_memRead ..).trans (sameRegisters_memRead ..))⟩
  | st | str => exact ⟨_, rfl, .store (sameRegisters_memWrite ..)⟩
  | sti => exact ⟨_, rfl, .store ((sameRegisters_memRead ..).trans (sameRegisters_memWrite ..))⟩
  | br nzp off9 =>
    refine ⟨_, rfl, ?_⟩
    split
    · exact .jump s _
    · exact .jump s s.pc
  | jmp => exact ⟨_, rfl, .jump s _⟩
  | jsr | jsrr => exact ⟨_, rfl, .call s _⟩
  | rti | res => exact ⟨_, rfl, .undefined s _⟩
  | _ => exact exec_effect_of_trap rfl s

theorem effect_of_exec {i : Instr} {s t : State} (h : exec i s = .next t) : Effect (kindOf i) s t := by
  obtain ⟨t', ho, e⟩ := exec_effect i s
  cases h.symm.trans ho
  exact e

/-! ### What each kind keeps -/

namespace RoutineEffect

variable {receives : Prop} {s t : State}

/-- A routine writes neither pc, the flag and ir nor the engine state. -/
theorem frame (h : RoutineEffect receives s t) : t.pc = s.pc ∧ t.cond = s.cond ∧ t.ir = s.ir ∧ t.run = s.run := by
  cases h with
  | same ht => exact ⟨ht.pc, ht.cond, ht.ir, ht.run⟩
  | character c _ ht => exact ⟨ht.pc, ht.cond, ht.ir, ht.run⟩

/-- A routine writes R0 at most, and only to put a character there. -/
theorem reg {r : Reg} (h : RoutineEffect receives s t) (hr : ¬ (receives ∧ r = 0)) : t.reg r = s.reg r := by
  cases h with
  | same ht => exact ht.reg r
  | character c hc ht => rw [ht.reg, State.reg_setReg_other s 0 r c fun h0 => hr ⟨hc, h0⟩]

end RoutineEffect

namespace TrapEffect

variable {vec : BitVec 8} {s t : State}

/-- After its linkage TRAP writes neither pc nor the flag nor ir. -/
theorem frame (h : TrapEffect vec s t) : t.pc = s.pc ∧ t.cond = s.cond ∧ t.ir = s.ir := by
  cases h with
  | routine _ ht =>
    obtain ⟨hpc, hcond, hir, -⟩ := ht.frame
    exact ⟨hpc, hcond, hir⟩
  | halt _ hu => exact ⟨hu.pc, hu.cond, hu.ir⟩
  | unknown => exact ⟨rfl, rfl, rfl⟩

/-- After its linkage TRAP writes R0 at most, and only in GETC and IN. -/
theorem reg {r : Reg} (h : TrapEffect vec s t) (hr : ¬ ((vec = 0x20#8 ∨ vec = 0x23#8) ∧ r = 0)) :
    t.reg r = s.reg r := by
  cases h with
  | routine _ ht => exact ht.reg hr
  | halt _ hu => exact hu.reg r
  | unknown => rfl

end TrapEffect

namespace Effect

variable {k : Kind} {s t : State}

theorem ir (h : Effect k s t) : t.ir = s.ir := by
  cases h with
  | result _ _ hu => exact hu.ir
  | store ht => exact ht.ir
  | jump | call | undefined => rfl
  | trap ht => exact ht.frame.2.2

/-- Only jumps and calls write pc (R14, R84). -/
theorem pc (h : Effect k s t) (hk : k ≠ .jump ∧ k ≠ .call) : t.pc = s.pc := by
  cases h with
  | result _ _ hu => exact hu.pc
  | store ht => exact ht.pc
  | jump => exact absurd rfl hk.1
  | call => exact absurd rfl hk.2
  | trap ht => exact ht.frame.1
  | undefined => rfl

/-- A kind of instruction writes no register but those it may write (R13). -/
theorem reg {r : Reg} (h : Effect k s t) (hr : ¬ k.mayWrite r) : t.reg r = s.reg r := by
  cases h with
  | result dr v hu => rw [State.reg_writeResult, if_neg (show r ≠ dr from hr), hu.reg]
  | store ht => exact ht.reg r
  | jump | undefined => rfl
  | call s w => exact State.reg_setReg_other s 7 r s.pc hr
  | trap ht =>
    obtain ⟨h7, h0⟩ := not_or.1 hr
    rw [ht.reg h0, State.reg_trapEntry, if_neg h7]

/-- The flag is that of the Word in the destination (R16). -/
theorem cond_of_dest {dr : Reg} (h : Effect k s t) (hk : k.dest = some dr) : t.cond = condOf (t.reg dr) := by
  cases h with
  | result dr' v hu => cases hk; simp
  | store | jump | call | trap | undefined => cases hk

/-- A kind of instruction without a destination leaves the flag. -/
theorem cond_of_no_dest (h : Effect k s t) (hk : k.dest = none) : t.cond = s.cond := by
  cases h with
  | result => cases hk
  | store ht => exact ht.cond
  | jump | call | undefined => rfl
  | trap ht => exact ht.frame.2.1

/-- Only TRAP with HALT's vector halts the engine (R18, R106). -/
theorem halted_iff (h : Effect k s t) (hs : s.run = .running) : t.run = .halted ↔ k = .trap 0x25#8 := by
  cases h with
  | result dr v hu => simp [hu.run, hs]
  | store ht => simp [ht.run, hs]
  | jump | call | undefined => simp [hs]
  | trap ht =>
    cases ht with
    | routine hv ht => simp [ht.frame, hs, hv]
    | halt hv => simp [hv]
    | unknown _ hv => simpa using ne_of_not_knownVector hv ⟨by decide, by decide⟩

/-- Only an undefined opcode or TRAP with a vector that has no routine stops the engine in FATAL (R18, R121). -/
theorem fatal_iff (h : Effect k s t) (hs : s.run = .running) :
    (∃ cause, t.run = .fatal cause) ↔ k = .undefined ∨ ∃ vec, k = .trap vec ∧ ¬ knownVector vec := by
  cases h with
  | result dr v hu => simp [hu.run, hs]
  | store ht => simp [ht.run, hs]
  | jump | call | undefined => simp [hs]
  | trap ht =>
    cases ht with
    | routine hv ht => simp [ht.frame, hs, hv]
    | halt hv => simp [hv, knownVector]
    | unknown _ hv => simp [hv]

end Effect

/-! ### What an instruction writes -/

/-- The flag of a Word with bit 15 set (R16). -/
theorem condOf_of_ge {v : Word} (h : 32768 ≤ v.toNat) : condOf v = .n := by
  have h0 : v ≠ 0#16 := by rintro rfl; simp at h
  simp [condOf, h0, BitVec.msb_eq_decide, h]

/-- The flag of a Word other than zero with bit 15 clear (R16). -/
theorem condOf_of_lt {v : Word} (h0 : 0 < v.toNat) (h : v.toNat < 32768) : condOf v = .p := by
  have h0 : v ≠ 0#16 := by rintro rfl; simp at h0
  simp [condOf, h0, BitVec.msb_eq_decide, h]

/-- Settles O16: the flag is `condOf` of the Word in the destination, and kinds without one leave it. -/
theorem flagsFollowTheWrittenResult : Obligations.FlagsFollowTheWrittenResult := by
  intro i s t h
  have he := effect_of_exec h
  rw [flagDest_eq_dest]
  refine ⟨fun dr hk => ?_, he.cond_of_no_dest⟩
  rw [he.cond_of_dest hk]
  exact ⟨fun h0 => by rw [h0]; rfl, condOf_of_ge, condOf_of_lt⟩

/-- Settles O46: what a kind of instruction may write is what R13 names. -/
theorem registersAreWrittenOnlyAsNamed : Obligations.RegistersAreWrittenOnlyAsNamed :=
  fun _ _ _ _ h hr => (effect_of_exec h).reg fun hk => hr (mayWrite_of_kind rfl hk)

/-- Settles O47: only the jumps and the calls write pc, and no kind writes ir. -/
theorem onlyControlTransfersWritePc : Obligations.OnlyControlTransfersWritePc := fun _ _ _ h =>
  ⟨fun hc => (effect_of_exec h).pc (kindOf_of_not_isControl hc), (effect_of_exec h).ir⟩

/-! ### The engine state -/

/-- Going on with an open cycle leaves the engine state. -/
theorem run_of_resume {b : Busy} {s t : State} (h : resume b s = .next t) : t.run = s.run := by
  obtain ⟨t', ho, ht⟩ := resume_effect b s
  cases h.symm.trans ho
  exact ht.frame.2.2.2

/-- Settles O44: an open cycle stays RUNNING, and a whole cycle stops the engine only as the kind of its instruction
says, which is read off the fetched Word. -/
theorem engineLeavesRunningOnlyByHaltOrFatal : Obligations.EngineLeavesRunningOnlyByHaltOrFatal := by
  refine ⟨rfl, fun s t h => ?_⟩
  have hr := running_of_step h
  refine ⟨hr, fun hb => ?_, fun hb => ?_⟩
  · obtain ⟨b, hb⟩ := Option.ne_none_iff_exists'.1 hb
    rw [step_busy hr hb] at h
    exact (run_of_resume h).trans hr
  · rw [step_idle hr hb] at h
    have hrun : s.fetch.2.run = .running := by simp [hr]
    have he := effect_of_exec h
    refine ⟨by rw [he.halted_iff hrun, kindOf_decode_eq_trap_iff], ?_⟩
    rw [he.fatal_iff hrun]
    simp only [kindOf_eq_undefined_iff, kindOf_decode_eq_trap_iff, and_assoc, or_assoc, exists_and_left,
      exists_eq_left']

end Sys2Proof.Machine
end

section
/-! PROOFS. The statements about spec/20_memory.md: a cycle that does not read the keyboard, the reads and writes of
memory, the two keyboard registers, a store to the next instruction, and what leaves the other cells alone. -/

namespace Sys2Proof.Machine

open Sys2Proof.Claims

/-! ### A read away from the keyboard-status address -/

/-- Settles O11: only the keyboard-status address polls. -/
theorem readElsewhereReturnsTheStoredWord : Obligations.ReadElsewhereReturnsTheStoredWord :=
  fun s _ ha => s.memRead_plain ha

/-- A load that does not poll: the stored Word is the result. -/
theorem State.loadResult_plain (s : State) (dr : Reg) {a : Word} (ha : a ≠ s.cfg.kbsrAddr) :
    s.loadResult dr a = s.writeResult dr (s.mem.read a) := by
  rw [loadResult_eq, memRead_plain s ha]

/-- LDI whose pointer read does not poll: a load from the stored pointer (R91). -/
theorem execLdi_plain (dr : Reg) {off9 : BitVec 9} {s : State} (ha : s.pcRel off9 ≠ s.cfg.kbsrAddr) :
    execLdi dr off9 s = .next (s.loadResult dr (s.mem.read (s.pcRel off9))) := by
  simp only [execLdi, s.memRead_plain ha]

/-- STI whose pointer read does not poll: a write to the stored pointer (R95). -/
theorem execSti_plain (sr : Reg) {off9 : BitVec 9} {s : State} (ha : s.pcRel off9 ≠ s.cfg.kbsrAddr) :
    execSti sr off9 s = .next (s.memWrite (s.mem.read (s.pcRel off9)) (s.reg sr)) := by
  simp only [execSti, s.memRead_plain ha]

/-! ### A cycle that does not read the keyboard -/

/-- The answer `o` leaves the input side of `s` alone, and `o'` is the same answer with the input side of `e`. -/
def SameButInput (s : State) (e : Env) (o o' : Host.Outcome State Fault Refusal) : Prop :=
  ∃ t, o = .next t ∧ o' = .next (withInputSide t e) ∧ t = withInputSide t s.env

/-- A load that does not poll does not look at the input side. -/
theorem loadResult_sameButInput {s : State} (e : Env) (dr : Reg) {a : Word} (ha : a ≠ s.cfg.kbsrAddr) :
    SameButInput s e (.next (s.loadResult dr a)) (.next ((withInputSide s e).loadResult dr a)) := by
  rw [s.loadResult_plain dr ha, (withInputSide s e).loadResult_plain dr ha]
  exact ⟨_, rfl, rfl, rfl⟩

/-- An instruction that may not read the keyboard does not look at the input side: its reads, if it makes any, are all
away from the keyboard-status address (R35). -/
theorem exec_sameButInput {i : Instr} {s : State} (e : Env) (h : ¬ mayReadKeyboard i s) :
    SameButInput s e (exec i s) (exec i (withInputSide s e)) := by
  cases i with
  | addReg | addImm | andReg | andImm | not | jmp | jsr | jsrr | lea | st | str | out | halt | trapUnknown80
  | trapUnknown40 | trapUnknown00 | trapUnknown30 | trapUnknown28 | trapUnknown26 | rti | res =>
    exact ⟨_, rfl, rfl, rfl⟩
  | br nzp off9 =>
    by_cases ht : nzp &&& s.cond.bits ≠ 0#3
    · exact ⟨{ s with pc := s.pcRel off9 }, congrArg _ (if_pos ht), congrArg _ (if_pos ht), rfl⟩
    · exact ⟨s, congrArg _ (if_neg ht), congrArg _ (if_neg ht), rfl⟩
  | ld | ldr => exact loadResult_sameButInput e _ h
  | ldi dr off9 =>
    obtain ⟨hp, ha⟩ := not_or.1 h
    have hs := execLdi_plain dr (s := s) hp
    have he := execLdi_plain dr (s := withInputSide s e) hp
    simp only [exec, hs, he]
    exact loadResult_sameButInput e dr ha
  | sti sr off9 => exact ⟨_, execSti_plain sr h, execSti_plain sr h, rfl⟩
  | getc | puts | inChar | putsp | trap => exact absurd trivial h

/-- Settles O54: neither the fetch nor the instruction reads at the keyboard-status address. -/
theorem stepIgnoresInputUnlessItReadsTheKeyboard : Obligations.StepIgnoresInputUnlessItReadsTheKeyboard := by
  intro s e hr hb hpc hk
  rw [step_idle hr hb, s.fetch_plain hpc, step_idle (s := withInputSide s e) hr hb,
    (withInputSide s e).fetch_plain hpc]
  exact exec_sameButInput e hk

/-! ### A read of the keyboard-status address -/

/-- A poll that answers `none`: the status reads zero, and nothing else is written (R31). -/
theorem State.memRead_status_none {s : State} (h : s.env.kbdPoll.1 = none) :
    s.memRead s.cfg.kbsrAddr =
      (0#16, { s with mem := s.mem.write s.cfg.kbsrAddr 0#16, env := s.env.kbdPoll.2 }) := by
  simp [memRead_status, pollKeyboard_none h]

/-- A poll that takes a character: the status reads 0x8000, and the character stands in the data register (R31). -/
theorem State.memRead_status_some {s : State} {c : Byte} (hd : s.cfg.kbsrAddr ≠ s.cfg.kbdrAddr)
    (h : s.env.kbdPoll.1 = some c) :
    s.memRead s.cfg.kbsrAddr =
      (0x8000#16, { s with
        mem := (s.mem.write s.cfg.kbsrAddr 0x8000#16).write s.cfg.kbdrAddr (zext c), env := s.env.kbdPoll.2 }) := by
  simp [memRead_status, pollKeyboard_some h, Memory.read_write_other _ _ hd]

theorem State.env_memRead_status (s : State) : (s.memRead s.cfg.kbsrAddr).2.env = s.env.kbdPoll.2 := by
  simp [memRead_status]

/-- Settles O12, by the two answers of the poll. -/
theorem readOfKeyboardStatusPolls : Obligations.ReadOfKeyboardStatusPolls := by
  intro s hd
  refine ⟨fun c h => ?_, fun h => ?_, ?_⟩
  · rw [State.memRead_status_some hd h]
    refine ⟨rfl, fun b => ?_⟩
    simp only [Memory.read_write, zext]
    split_ifs with hr hs
    · exact absurd (hs.symm.trans hr) hd
    · rfl
    · rfl
    · rfl
  · rw [State.memRead_status_none h]
    exact ⟨rfl, fun b => s.mem.read_write s.cfg.kbsrAddr b 0#16⟩
  · cases h : s.env.kbdPoll.1 with
    | none => rw [State.memRead_status_none h]
    | some c => rw [State.memRead_status_some hd h]

/-- BR with an empty mask is a no-op (R60). -/
theorem exec_br_zero (off9 : BitVec 9) (s : State) : exec (.br 0#3 off9) s = .next s := by
  simp [exec, execBr]

/-- Settles O8: the status Word 0x8000 is RTI's, and 0x0000 is BR's with an empty mask. -/
theorem fetchAtKeyboardStatusIsRtiOrNoOp : Obligations.FetchAtKeyboardStatusIsRtiOrNoOp := by
  intro s hr hb hpc hd
  have hrti : decode 0x8000#16 = .rti := by decide
  have hbr : decode 0#16 = .br 0#3 0#9 := by decide
  rw [step_idle hr hb, s.fetch_eq, hpc]
  cases h : s.env.kbdPoll.1 with
  | none =>
    rw [State.memRead_status_none h, hbr, exec_br_zero]
    exact ⟨_, rfl, rfl, rfl, rfl, rfl, .inr ⟨rfl, rfl, by simp, hr⟩⟩
  | some c =>
    rw [State.memRead_status_some hd h, hrti]
    exact ⟨_, rfl, rfl, rfl, rfl, rfl, .inl ⟨rfl, rfl, by simp [Memory.read_write_other _ _ hd], rfl⟩⟩

/-- A poll whose named answer is success takes the first named character (R10). -/
theorem Env.kbdPoll_named {e : Env} {c : Byte} {cs : List Byte} {ds : List Bool} (hi : e.input = c :: cs)
    (hd : e.draws = true :: ds) : e.kbdPoll = (some c, { e with input := cs, draws := ds }) := by
  simp [kbdPoll, draw, kbdGet, hi, hd]

/-- Settles O14: the second poll overwrites the data register, where the first character stood. -/
theorem secondPollLosesTheFirstCharacter : Obligations.SecondPollLosesTheFirstCharacter := by
  intro s c c' cs ds hd hi hds
  have h₁ := Env.kbdPoll_named hi hds
  have h₂ : (s.memRead s.cfg.kbsrAddr).2.env.kbdPoll = _ :=
    Env.kbdPoll_named (by rw [State.env_memRead_status, h₁]) (by rw [State.env_memRead_status, h₁])
  have hr := State.memRead_status_some (by simpa using hd) (congrArg Prod.fst h₂)
  rw [State.cfg_memRead] at hr
  rw [hr, h₂]
  exact ⟨Memory.read_write_same .., rfl⟩

/-! ### A write -/

/-- What stood at the keyboard-status address before a poll no cell shows after it. -/
theorem State.read_pollKeyboard_memWrite (s : State) (v b : Word) :
    (s.memWrite s.cfg.kbsrAddr v).pollKeyboard.mem.read b = s.pollKeyboard.mem.read b := by
  cases h : s.env.kbdPoll.1 with
  | none =>
    simp only [pollKeyboard_none h, pollKeyboard_none (s := s.memWrite s.cfg.kbsrAddr v) h, mem_memWrite, cfg_memWrite,
      Memory.read_write]
    split_ifs <;> rfl
  | some c =>
    simp only [pollKeyboard_some h, pollKeyboard_some (s := s.memWrite s.cfg.kbsrAddr v) h, mem_memWrite, cfg_memWrite,
      Memory.read_write]
    split_ifs <;> rfl

/-- Settles O10: the reading laws of memory, and the poll that overwrites the keyboard-status cell. -/
theorem writeStoresTheWordAndNothingElse : Obligations.WriteStoresTheWordAndNothingElse := by
  intro s a v
  refine ⟨fun b => s.mem.read_write a b v, rfl, fun ha => ?_, ?_, fun ha => ?_, fun ha => ?_, fun hd h => ?_⟩
  · rw [(s.memWrite a v).memRead_plain ha]
    exact s.mem.read_write_same a v
  · rintro r q rfl rfl
    have hr := (s.memWrite s.cfg.kbsrAddr v).memRead_status
    rw [State.cfg_memWrite] at hr
    rw [hr, s.memRead_status]
    exact ⟨s.read_pollKeyboard_memWrite v _, rfl, s.read_pollKeyboard_memWrite v⟩
  · exact s.mem.read_write_other v ha.symm
  · rw [s.memRead_plain ha]
  · simp [State.memRead_status_none h, Memory.read_write_other _ _ hd.symm]

/-! ### A store to the next instruction -/

/-- A store writes the register and address `storeOf` gives, after its pointer read if it makes one. -/
theorem exec_of_storeOf {i : Instr} {s : State} {sr : Reg} {a : Word} (h : storeOf i s = some (sr, a)) :
    ∃ u, exec i s = .next (u.memWrite a (s.reg sr)) ∧ SameRegisters s u ∧ u.busy = s.busy ∧ u.cfg = s.cfg := by
  cases i with
  | st | str =>
    obtain ⟨rfl, rfl⟩ := by simpa [storeOf] using h
    exact ⟨s, rfl, .refl s, rfl, rfl⟩
  | sti _ off9 =>
    obtain ⟨rfl, rfl⟩ := by simpa [storeOf] using h
    refine ⟨(s.memRead (s.pcRel off9)).2, ?_, sameRegisters_memRead .., s.busy_memRead _, s.cfg_memRead _⟩
    rw [← s.reg_memRead (s.pcRel off9)]
    rfl
  | _ => cases h

/-- Settles O15: the next fetch reads at the address just written, away from the keyboard-status address. -/
theorem storeToTheNextInstructionIsFetched : Obligations.StoreToTheNextInstructionIsFetched := by
  intro s sr hr hb hpc hpc' hst
  obtain ⟨u, ho, hu, hub, huc⟩ := exec_of_storeOf hst
  refine ⟨u.memWrite (s.pc + 1) (s.reg sr), ?_, hu.pc, ?_⟩
  · rw [step_idle hr hb, s.fetch_plain hpc]
    exact ho
  · have hne : u.pc ≠ u.cfg.kbsrAddr := by rw [hu.pc, huc]; exact hpc'
    rw [step_idle (s := u.memWrite _ _) (hu.run.trans hr) (hub.trans hb), State.fetch_plain (u.memWrite _ _) hne]
    simp [hu.pc]

/-! ### What only the stores write -/

/-- From `s` to `t` the parameters stay, and every cell outside the two mapped addresses. -/
structure KeepsCells (s t : State) : Prop where
  cfg : t.cfg = s.cfg
  read : ∀ b, b ≠ s.cfg.kbsrAddr → b ≠ s.cfg.kbdrAddr → t.mem.read b = s.mem.read b

namespace KeepsCells

variable {s t u : State}

theorem of_eq (hm : t.mem = s.mem) (hc : t.cfg = s.cfg) : KeepsCells s t := ⟨hc, fun _ _ _ => by rw [hm]⟩

theorem trans (h : KeepsCells s t) (h' : KeepsCells t u) : KeepsCells s u :=
  ⟨h'.cfg.trans h.cfg, fun b hs hd => (h'.read b (h.cfg ▸ hs) (h.cfg ▸ hd)).trans (h.read b hs hd)⟩

theorem memRead (s : State) (a : Word) : KeepsCells s (s.memRead a).2 :=
  ⟨s.cfg_memRead a, fun _ => s.read_memRead_other a⟩

theorem loadResult (s : State) (dr : Reg) (a : Word) : KeepsCells s (s.loadResult dr a) :=
  (memRead s a).trans (of_eq rfl rfl)

theorem stringWalk (emit : Word → List Byte) (n : Nat) (a : Word) (s : State) :
    KeepsCells s (stringWalk emit n a s).2 :=
  ⟨cfg_stringWalk emit n a s, fun _ => read_stringWalk_other⟩

end KeepsCells

/-- After a part that keeps the cells, a string routine writes the two mapped cells at most, whether its walk ends or
not. -/
theorem stringRoutine_keepsCells (emit : Word → List Byte) (more : Word → Busy) (a : Word) {s u : State}
    (hu : KeepsCells s u) : ∃ t, stringRoutine emit more a u = .next t ∧ KeepsCells s t := by
  have hw := hu.trans (.stringWalk emit (walkFuel u) a u)
  obtain ⟨-, ho⟩ | ⟨b, -, ho⟩ := stringRoutine_cases emit more a u
  · exact ⟨_, ho, hw⟩
  · exact ⟨_, ho, hw.trans (.of_eq rfl rfl)⟩

/-- After a part that keeps the cells, a routine that may wait or walk for ever writes the two mapped cells at most. -/
theorem resume_keepsCells (b : Busy) {s u : State} (hu : KeepsCells s u) :
    ∃ t, resume b u = .next t ∧ KeepsCells s t := by
  cases b with
  | getc => obtain ⟨c, e, -, ho⟩ | ⟨-, ho⟩ := getcRoutine_cases u <;> exact ⟨_, ho, hu.trans (.of_eq rfl rfl)⟩
  | inChar => obtain ⟨c, e, -, ho⟩ | ⟨-, ho⟩ := inReceive_cases u <;> exact ⟨_, ho, hu.trans (.of_eq rfl rfl)⟩
  | puts a => exact stringRoutine_keepsCells putsEmit .puts a hu
  | putsp a => exact stringRoutine_keepsCells putspEmit .putsp a hu

/-- TRAP writes the two mapped cells at most, whatever its vector. -/
theorem execTrap_keepsCells (vec : BitVec 8) (s : State) : ∃ t, execTrap vec s = .next t ∧ KeepsCells s t := by
  have hentry : KeepsCells s s.trapEntry := .of_eq rfl rfl
  unfold execTrap
  dsimp only
  split_ifs
  · exact resume_keepsCells .getc hentry
  · exact ⟨_, rfl, .of_eq rfl rfl⟩
  · exact resume_keepsCells (.puts _) hentry
  · exact resume_keepsCells .inChar (hentry.trans (.of_eq rfl rfl))
  · exact resume_keepsCells (.putsp _) hentry
  · exact ⟨_, rfl, .of_eq rfl rfl⟩
  · exact ⟨_, rfl, .of_eq rfl rfl⟩

/-- An instruction that is no store writes the two mapped cells at most. -/
theorem exec_keepsCells {i : Instr} (s : State) (hi : isStore i = false) : ∃ t, exec i s = .next t ∧ KeepsCells s t := by
  cases i with
  | st | sti | str => cases hi
  | addReg | addImm | andReg | andImm | not | jmp | jsr | jsrr | lea | rti | res => exact ⟨_, rfl, .of_eq rfl rfl⟩
  | br nzp off9 => refine ⟨_, rfl, .of_eq ?_ ?_⟩ <;> split <;> rfl
  | ld | ldr => exact ⟨_, rfl, .loadResult ..⟩
  | ldi => exact ⟨_, rfl, (KeepsCells.memRead ..).trans (.loadResult ..)⟩
  | _ => rw [exec_eq_execTrap rfl]; exact execTrap_keepsCells _ s

/-- Settles O48: reads write the two mapped cells at most, and only the stores make writes of their own. -/
theorem onlyStoresChangeMemoryOutsideTheKeyboard : Obligations.OnlyStoresChangeMemoryOutsideTheKeyboard := by
  intro i s t b h hi hs hd
  obtain ⟨t', ho, ht⟩ := exec_keepsCells s hi
  cases h.symm.trans ho
  exact ht.read b hs hd

end Sys2Proof.Machine
end

section
/-! PROOFS. The statements about spec/30_encoding.md: a Word against the row of R56, decoder and encoder, ignored bits,
and the illegal and no-op encodings. -/

namespace Sys2Proof.Machine

open Sys2Proof.Claims

/-! ### Words alike outside ignored bits -/

/-- Words that differ at most where `m` has ones are those that are alike once these bits are set. -/
theorem xor_and_not_eq_zero_iff {n : Nat} (m x y : BitVec n) : (x ^^^ y) &&& ~~~m = 0#n ↔ x ||| m = y ||| m := by
  simp only [BitVec.eq_of_getElem_eq_iff, BitVec.getElem_and, BitVec.getElem_xor, BitVec.getElem_not,
    BitVec.getElem_or, BitVec.getElem_zero]
  refine forall₂_congr fun j hj => ?_
  cases x[j] <;> cases y[j] <;> cases m[j] <;> decide

/-- Concatenations of the same widths are equal field by field. -/
theorem append_inj_iff {p q : Nat} {a x : BitVec p} {b y : BitVec q} : a ++ b = x ++ y ↔ a = x ∧ b = y := by
  refine ⟨fun h => ⟨?_, ?_⟩, fun ⟨ha, hb⟩ => by rw [ha, hb]⟩
  · simpa only [BitVec.extractLsb'_append_eq_left] using congrArg (BitVec.extractLsb' q p) h
  · simpa only [BitVec.extractLsb'_append_eq_right] using congrArg (BitVec.extractLsb' 0 q) h

/-- A Word from bit `s` up holds the field `x` but for the bits `m`. -/
def Holds (w : Word) (s : Nat) {n : Nat} (m x : BitVec n) : Prop := w.extractLsb' s n ||| m = x ||| m

section
variable {w : Word} {s n : Nat} {x : BitVec n}

@[simp] theorem holds_zero : Holds w s 0#n x ↔ w.extractLsb' s n = x := by simp [Holds]

@[simp] theorem holds_allOnes : Holds w s (BitVec.allOnes n) x := by simp [Holds]

/-- Two adjacent fields are held together exactly if each is held at its place. -/
theorem holds_append {k : Nat} {m : BitVec n} {b y : BitVec k} :
    Holds w s (m ++ b) (x ++ y) ↔ Holds w (s + k) m x ∧ Holds w s b y := by
  unfold Holds
  rw [← BitVec.extractLsb'_append_extractLsb'_eq_extractLsb' rfl, BitVec.or_append, BitVec.or_append, append_inj_iff]

end

/-- The whole Word as one field. -/
theorem holds_whole {w m x : Word} : Holds w 0 m x ↔ w ||| m = x ||| m := by simp [Holds]

/-! ### The fields of a row -/

@[simp] theorem regOfBits_bitsOfReg (r : Reg) : regOfBits (bitsOfReg r) = r := rfl

/-- A Word's bits below the opcode are as the instruction's row of R56 says; nothing is said of ignored bits. -/
def HasOperands (w : Word) : Instr → Prop
  | .addReg dr sr1 sr2 | .andReg dr sr1 sr2 =>
    w.extractLsb' 9 3 = bitsOfReg dr ∧ w.extractLsb' 6 3 = bitsOfReg sr1 ∧ w.extractLsb' 5 1 = 0#1 ∧
      w.extractLsb' 0 3 = bitsOfReg sr2
  | .addImm dr sr1 imm5 | .andImm dr sr1 imm5 =>
    w.extractLsb' 9 3 = bitsOfReg dr ∧ w.extractLsb' 6 3 = bitsOfReg sr1 ∧ w.extractLsb' 5 1 = 1#1 ∧
      w.extractLsb' 0 5 = imm5
  | .not dr sr => w.extractLsb' 9 3 = bitsOfReg dr ∧ w.extractLsb' 6 3 = bitsOfReg sr
  | .br nzp off9 => w.extractLsb' 9 3 = nzp ∧ w.extractLsb' 0 9 = off9
  | .jmp base => w.extractLsb' 6 3 = bitsOfReg base
  | .jsr off11 => w.extractLsb' 11 1 = 1#1 ∧ w.extractLsb' 0 11 = off11
  | .jsrr base => w.extractLsb' 11 1 = 0#1 ∧ w.extractLsb' 6 3 = bitsOfReg base
  | .ld r off9 | .ldi r off9 | .lea r off9 | .st r off9 | .sti r off9 =>
    w.extractLsb' 9 3 = bitsOfReg r ∧ w.extractLsb' 0 9 = off9
  | .ldr r base off6 | .str r base off6 =>
    w.extractLsb' 9 3 = bitsOfReg r ∧ w.extractLsb' 6 3 = bitsOfReg base ∧ w.extractLsb' 0 6 = off6
  | .rti | .res => True
  | .trap vec => w.extractLsb' 0 8 = vec
  | .getc => w.extractLsb' 0 8 = 0x20#8
  | .out => w.extractLsb' 0 8 = 0x21#8
  | .puts => w.extractLsb' 0 8 = 0x22#8
  | .inChar => w.extractLsb' 0 8 = 0x23#8
  | .putsp => w.extractLsb' 0 8 = 0x24#8
  | .halt => w.extractLsb' 0 8 = 0x25#8
  | .trapUnknown80 v => w.extractLsb' 0 8 = 0b1#1 ++ v
  | .trapUnknown40 v => w.extractLsb' 0 8 = 0b01#2 ++ v
  | .trapUnknown00 v => w.extractLsb' 0 8 = 0b000#3 ++ v
  | .trapUnknown30 v => w.extractLsb' 0 8 = 0b0011#4 ++ v
  | .trapUnknown28 v => w.extractLsb' 0 8 = 0b00101#5 ++ v
  | .trapUnknown26 v => w.extractLsb' 0 8 = 0b0010011#7 ++ v

/-- A Word is one of those R56 gives the instruction. -/
def Encodes (w : Word) (i : Instr) : Prop := w.extractLsb' 12 4 = opcodeOf i ∧ HasOperands w i

/-- `ignoredBits`, field by field as R56 draws the rows. -/
def ignoredFields : Instr → Word
  | .addReg _ _ _ | .andReg _ _ _ => 0#4 ++ 0#3 ++ 0#3 ++ 0#1 ++ BitVec.allOnes 2 ++ 0#3
  | .addImm _ _ _ | .andImm _ _ _ => 0#4 ++ 0#3 ++ 0#3 ++ 0#1 ++ 0#5
  | .not _ _ => 0#4 ++ 0#3 ++ 0#3 ++ BitVec.allOnes 6
  | .br _ _ | .ld _ _ | .ldi _ _ | .lea _ _ | .st _ _ | .sti _ _ => 0#4 ++ 0#3 ++ 0#9
  | .jmp _ => 0#4 ++ BitVec.allOnes 3 ++ 0#3 ++ BitVec.allOnes 6
  | .jsr _ => 0#4 ++ 0#1 ++ 0#11
  | .jsrr _ => 0#4 ++ 0#1 ++ BitVec.allOnes 2 ++ 0#3 ++ BitVec.allOnes 6
  | .ldr _ _ _ | .str _ _ _ => 0#4 ++ 0#3 ++ 0#3 ++ 0#6
  | .rti | .res => 0#4 ++ BitVec.allOnes 12
  | .trap _ | .getc | .out | .puts | .inChar | .putsp | .halt => 0#4 ++ BitVec.allOnes 4 ++ 0#8
  | .trapUnknown80 _ | .trapUnknown40 _ | .trapUnknown00 _ => 0#4 ++ BitVec.allOnes 4 ++ 0#8
  | .trapUnknown30 _ | .trapUnknown28 _ | .trapUnknown26 _ => 0#4 ++ BitVec.allOnes 4 ++ 0#8

theorem ignoredBits_eq (i : Instr) : ignoredBits i = ignoredFields i := by cases i <;> rfl

/-- The Words of an instruction are its encoding but for the ignored bits (R56, R58). -/
theorem encodes_iff (w : Word) (i : Instr) : Encodes w i ↔ w ||| ignoredBits i = encode i ||| ignoredBits i := by
  have hrti : encode .rti = opcodeOf .rti ++ 0#12 := rfl
  have hres : encode .res = opcodeOf .res ++ 0#12 := rfl
  rw [← holds_whole, ignoredBits_eq]
  cases i with
  | rti | res =>
    simp only [Encodes, HasOperands, ignoredFields, hrti, hres, holds_append, holds_zero, holds_allOnes, and_true]
  | _ =>
    simp only [Encodes, HasOperands, opcodeOf, ignoredFields, encode, trapWord, holds_append, holds_zero,
      holds_allOnes, and_true, and_assoc]

/-- Every form of TRAP is opcode 0b1111 with its vector in bits 7..0 (R56). -/
theorem encodes_iff_of_trap {w : Word} {i : Instr} {vec : BitVec 8} (h : kindOf i = .trap vec) :
    Encodes w i ↔ w.extractLsb' 12 4 = 0b1111#4 ∧ w.extractLsb' 0 8 = vec := by
  cases i with
  | addReg | addImm | andReg | andImm | not | br | jmp | jsr | jsrr | ld | ldi | ldr | lea | st | sti | str | rti
  | res => cases h
  | _ => cases h; exact .rfl

/-! ### The decoder against the rows -/

/-- The vectors of a refined row of TRAP select that row (R100, R107). -/
theorem decodeTrap_eq {i : Instr} {vec : BitVec 8} (hk : kindOf i = .trap vec) (hi : i.wellFormed = true) :
    decodeTrap vec = i := by
  cases i with
  | addReg | addImm | andReg | andImm | not | br | jmp | jsr | jsrr | ld | ldi | ldr | lea | st | sti | str | rti
  | res => cases hk
  | trap => cases hi
  | getc | out | puts | inChar | putsp | halt => cases hk; rfl
  | trapUnknown80 v | trapUnknown40 v | trapUnknown00 v | trapUnknown30 v | trapUnknown28 v | trapUnknown26 v =>
    have hv : ¬ knownVector vec := by cases hk; exact not_knownVector_append v (by decide)
    have hne := fun u => ne_of_not_knownVector (v := u) hv
    cases hk
    simp only [decodeTrap, BitVec.extractLsb'_append_eq_of_le, BitVec.extractLsb'_append_eq_right, Nat.reduceLeDiff]
    simp [hne]

/-- The decoder answers an instruction for each of its Words (R57, R58). -/
theorem Encodes.decode_eq {w : Word} {i : Instr} (h : Encodes w i) (hi : i.wellFormed = true) : decode w = i := by
  cases i with
  | trap | getc | out | puts | inChar | putsp | halt | trapUnknown80 | trapUnknown40 | trapUnknown00 | trapUnknown30
  | trapUnknown28 | trapUnknown26 =>
    obtain ⟨ho, hv⟩ := (encodes_iff_of_trap rfl).1 h
    rw [decode_of_trap ho, hv]
    exact decodeTrap_eq rfl hi
  | _ =>
    simp only [Encodes, HasOperands, opcodeOf] at h
    simp [decode, h]

/-- A Word is one of those of the instruction it decodes to (R57). -/
theorem encodes_decode (w : Word) : Encodes w (decode w) := by
  unfold decode
  dsimp only
  split
  case h_1 ho | h_2 ho =>
    split
    next hm => exact ⟨ho, rfl, rfl, hm, rfl⟩
    next hm => exact ⟨ho, rfl, rfl, (BitVec.eq_zero_or_eq_one _).resolve_left hm, rfl⟩
  case h_6 ho =>
    split
    next hm => exact ⟨ho, hm, rfl⟩
    next hm => exact ⟨ho, (BitVec.eq_zero_or_eq_one _).resolve_right hm, rfl⟩
  case h_14 ho => exact (encodes_iff_of_trap (kindOf_decodeTrap _)).2 ⟨ho, rfl⟩
  case h_16 =>
    -- the other fifteen opcodes are excluded, so this one is 0b1101
    refine ⟨?_, trivial⟩
    change w.extractLsb' 12 4 = 0b1101#4
    generalize w.extractLsb' 12 4 = op at *
    revert op
    decide
  case h_15 ho => exact ⟨ho, trivial⟩
  case h_5 ho => exact ⟨ho, rfl⟩
  case h_3 ho | h_4 ho | h_7 ho | h_8 ho | h_10 ho | h_11 ho | h_12 ho => exact ⟨ho, rfl, rfl⟩
  case h_9 ho | h_13 ho => exact ⟨ho, rfl, rfl, rfl⟩

/-! ### Settling the statements -/

/-- The decoded instruction's opcode is the Word's (R51). -/
theorem opcodeOf_decode (w : Word) : opcodeOf (decode w) = w.extractLsb' 12 4 := (encodes_decode w).1.symm

/-- The undefined opcodes are 0b1000 and 0b1101 (R59). -/
theorem kindOf_eq_undefined_iff_opcode {i : Instr} :
    kindOf i = .undefined ↔ opcodeOf i = 0b1000#4 ∨ opcodeOf i = 0b1101#4 := by
  cases i <;> simp [kindOf, opcodeOf]

/-- Only the generic row is ill-formed. -/
theorem wellFormed_of_ne_trap {i : Instr} (h : ∀ vec, i ≠ .trap vec) : i.wellFormed = true := by
  cases i with
  | trap vec => exact absurd rfl (h vec)
  | _ => rfl

/-- No vector selects the generic row: each of the twelve branches answers another one. -/
theorem decodeTrap_ne_trap (vec v : BitVec 8) : decodeTrap vec ≠ .trap v := by
  unfold decodeTrap
  iterate 11 refine iteInduction (motive := (· ≠ Instr.trap v)) (fun _ => nofun) fun _ => ?_
  exact nofun

/-- Settles O4: only opcode 0b1111 could give the generic row, and there its vector selects another one. -/
theorem decodedInstructionsAreWellFormed : Obligations.DecodedInstructionsAreWellFormed := by
  refine fun w => wellFormed_of_ne_trap fun vec h => ?_
  have ho := (kindOf_decode_eq_trap_iff.1 (congrArg kindOf h)).1
  exact decodeTrap_ne_trap _ _ ((decode_of_trap ho).symm.trans h)

/-- Settles O2: an encoding is one of the instruction's own Words, and those decode to it. -/
theorem decodeOfEncodeIsTheInstruction : Obligations.DecodeOfEncodeIsTheInstruction :=
  fun i hi => ((encodes_iff _ i).2 rfl).decode_eq hi

/-- Settles O3: to differ from `w` in ignored bits only is to be a Word of the instruction `w` decodes to. -/
theorem wordsDecodeAlikeIffOnlyIgnoredBitsDiffer : Obligations.WordsDecodeAlikeIffOnlyIgnoredBitsDiffer := by
  intro w w'
  have hw := (encodes_iff w _).1 (encodes_decode w)
  have hdiff : Encodes w' (decode w) ↔ (w ^^^ w') &&& ~~~ignoredBits (decode w) = 0#16 := by
    rw [xor_and_not_eq_zero_iff, hw, encodes_iff, eq_comm]
  rw [← hdiff]
  exact ⟨fun h => h ▸ encodes_decode w', fun h => (h.decode_eq (decodedInstructionsAreWellFormed w)).symm⟩

/-- Settles O5: the engine stops in FATAL as the kind of the instruction says, which is read off the Word. -/
theorem fatalWordsAreExactlyTheIllegalOnes : Obligations.FatalWordsAreExactlyTheIllegalOnes := by
  intro w s hs
  obtain ⟨t, ht, he⟩ := exec_effect (decode w) s
  have hf := he.fatal_iff hs
  simp only [kindOf_eq_undefined_iff_opcode, opcodeOf_decode, kindOf_decode_eq_trap_iff] at hf
  simp [ht, hf, or_assoc]

/-- Below 0x0200 bits 15..9 are zero: BR with an empty mask. -/
theorem decode_of_toNat_lt {w : Word} (h : w.toNat < 0x0200) : decode w = .br 0#3 (w.extractLsb' 0 9) := by
  refine Encodes.decode_eq (i := .br ..) ⟨?_, ?_, rfl⟩ rfl
  all_goals
    rw [← BitVec.toNat_inj, BitVec.extractLsb'_toNat, Nat.shiftRight_eq_div_pow]
    change _ = 0
    omega

/-- Settles O25: these Words are BR with an empty mask, which is never taken. -/
theorem wordsWithAnEmptyMaskAreNoOps : Obligations.WordsWithAnEmptyMaskAreNoOps :=
  fun _ s h => decode_of_toNat_lt h ▸ exec_br_zero _ s

/-- Settles O1: the decoder run on each Word. -/
theorem sampleWordsDecodeAsTheTableSays : Obligations.SampleWordsDecodeAsTheTableSays := by
  unfold Obligations.SampleWordsDecodeAsTheTableSays
  decide

end Sys2Proof.Machine
end

section
/-! PROOFS. The statements about spec/40_operate.md: the result of each operate instruction, and subtraction as three
of them. -/

namespace Sys2Proof.Machine

/-! ### What each operate instruction leaves -/

/-- All that a flag-setting instruction's result changes: its destination and the flag. -/
theorem State.writeResult_eq (s : State) (dr : Reg) (v : Word) :
    s.writeResult dr v = { s with regs := s.regs.set dr v, cond := condOf v } := rfl

theorem exec_addReg (dr sr1 sr2 : Reg) (s : State) :
    exec (.addReg dr sr1 sr2) s = .next (s.writeResult dr (s.reg sr1 + s.reg sr2)) := rfl

theorem exec_addImm (dr sr1 : Reg) (imm5 : BitVec 5) (s : State) :
    exec (.addImm dr sr1 imm5) s = .next (s.writeResult dr (s.reg sr1 + imm5.signExtend 16)) := rfl

theorem exec_andReg (dr sr1 sr2 : Reg) (s : State) :
    exec (.andReg dr sr1 sr2) s = .next (s.writeResult dr (s.reg sr1 &&& s.reg sr2)) := rfl

theorem exec_andImm (dr sr1 : Reg) (imm5 : BitVec 5) (s : State) :
    exec (.andImm dr sr1 imm5) s = .next (s.writeResult dr (s.reg sr1 &&& imm5.signExtend 16)) := rfl

theorem exec_not (dr sr : Reg) (s : State) : exec (.not dr sr) s = .next (s.writeResult dr (~~~s.reg sr)) := rfl

/-- Settles O18: addition of Words is modulo 65536. -/
theorem addRegisterResult : Obligations.AddRegisterResult := fun dr sr1 sr2 s =>
  ⟨_, BitVec.toNat_add .., by rw [exec_addReg, State.writeResult_eq]⟩

/-- Settles O19: addition of Words is modulo 65536. -/
theorem addImmediateResult : Obligations.AddImmediateResult := fun dr sr1 imm5 s =>
  ⟨_, BitVec.toNat_add .., by rw [exec_addImm, State.writeResult_eq]⟩

/-- Settles O20, by the bits of an AND. -/
theorem andRegisterResult : Obligations.AndRegisterResult := fun dr sr1 sr2 s =>
  ⟨_, fun _ => BitVec.getLsbD_and, by rw [exec_andReg, State.writeResult_eq]⟩

/-- Settles O21, by the bits of an AND with the extended constant. -/
theorem andImmediateResult : Obligations.AndImmediateResult := fun dr sr1 imm5 s =>
  ⟨_, fun _ => BitVec.getLsbD_and, by rw [exec_andImm, State.writeResult_eq]⟩

/-- Settles O22: a Word and its complement add up to 65535. -/
theorem notResult : Obligations.NotResult := fun dr sr s =>
  ⟨_, BitVec.toNat_not, by rw [exec_not, State.writeResult_eq]⟩

/-! ### Subtraction -/

/-- R75: adding the complement plus one subtracts, in every width. -/
theorem add_not_add_one {n : Nat} (x y : BitVec n) : x + (~~~y + 1#n) = x - y := by
  rw [← BitVec.neg_eq_not_add, BitVec.sub_eq_add_neg]

/-- Settles O23: the first two instructions leave the negated subtrahend in `d` and the minuend untouched in `a`. -/
theorem subtractionIsNotThenAddOneThenAdd : Obligations.SubtractionIsNotThenAddOneThenAdd := by
  intro d a b s hda
  refine ⟨_, _, _, exec_not d b s, exec_addImm d d 1#5 _, exec_addReg d a d _, ?_⟩
  have hone : (1#5).signExtend 16 = 1#16 := by decide
  simp only [State.reg_writeResult_same, State.reg_writeResult, if_neg hda.symm, hone]
  exact add_not_add_one (s.reg a) (s.reg b)

end Sys2Proof.Machine
end

section
/-! PROOFS. The statements about spec/41_control.md: when BR is taken, where the jumps and calls go, and the linkage in
R7. -/

namespace Sys2Proof.Machine

open Sys2Proof.Claims

/-! ### The linkage -/

/-- The instructions that write R7 with the following address are the calls and the forms of TRAP (R84, R100). -/
theorem links_iff_kind {i : Instr} : links i = true ↔ kindOf i = .call ∨ ∃ vec, kindOf i = .trap vec := by
  refine ⟨fun h => ?_, fun h => h.elim links_of_call fun ⟨_, hk⟩ => links_of_trap hk⟩
  cases i with
  | jsr | jsrr => exact .inl rfl
  | addReg | addImm | andReg | andImm | not | br | jmp | ld | ldi | ldr | lea | st | sti | str | rti | res => cases h
  | _ => exact .inr ⟨_, rfl⟩

/-- A call leaves in R7 the pc it started from. -/
theorem Effect.reg_seven_of_call {s t : State} (h : Effect .call s t) : t.reg 7 = s.pc := by
  cases h with
  | call s w => exact s.reg_setReg_same 7 s.pc

/-- TRAP leaves in R7 the pc it started from: what follows the linkage writes R0 at most. -/
theorem Effect.reg_seven_of_trap {vec : BitVec 8} {s t : State} (h : Effect (.trap vec) s t) : t.reg 7 = s.pc := by
  cases h with
  | trap ht => exact (ht.reg fun ⟨_, h0⟩ => absurd h0 (by decide)).trans s.reg_trapEntry_seven

/-- A linking instruction leaves in R7 the pc it started from. -/
theorem reg_seven_of_links {i : Instr} {s t : State} (hl : links i = true) (h : exec i s = .next t) :
    t.reg 7 = s.pc := by
  have he := effect_of_exec h
  obtain hk | ⟨vec, hk⟩ := links_iff_kind.1 hl
  · exact (hk ▸ he).reg_seven_of_call
  · exact (hk ▸ he).reg_seven_of_trap

/-- Settles O49: the fetch has incremented pc when the instruction saves it. -/
theorem linkageIsTheFollowingAddress : Obligations.LinkageIsTheFollowingAddress := by
  intro s t hb h hl
  rw [step_idle (running_of_step h) hb] at h
  exact (reg_seven_of_links hl h).trans s.pc_fetch

/-! ### When BR is taken -/

/-- The AND with a single bit is not zero exactly if that bit is set. -/
theorem and_twoPow_ne_zero_iff {w : Nat} (x : BitVec w) {i : Nat} (hi : i < w) :
    x &&& BitVec.twoPow w i ≠ 0#w ↔ x.getLsbD i = true := by
  have hne : BitVec.twoPow w i ≠ 0#w := fun h => by simpa [hi] using congrArg (BitVec.getLsbD · i) h
  rw [BitVec.and_twoPow, ite_ne_right_iff, and_iff_left hne]

/-- The mask has a bit in common with the flag exactly if it names the flag: n is bit 2, z bit 1, p bit 0 (R55, R80). -/
theorem and_condBits_ne_zero_iff (nzp : BitVec 3) (c : Cond) :
    nzp &&& c.bits ≠ 0#3 ↔
      (c = .n ∧ nzp.getLsbD 2 = true) ∨ (c = .z ∧ nzp.getLsbD 1 = true) ∨ (c = .p ∧ nzp.getLsbD 0 = true) := by
  cases c with
  | n => exact (and_twoPow_ne_zero_iff nzp (i := 2) (by decide)).trans (by simp)
  | z => exact (and_twoPow_ne_zero_iff nzp (i := 1) (by decide)).trans (by simp)
  | p => exact (and_twoPow_ne_zero_iff nzp (i := 0) (by decide)).trans (by simp)

/-- BR changes pc alone, and that only when it is taken (R80). -/
theorem exec_br (nzp : BitVec 3) (off9 : BitVec 9) (s : State) :
    exec (.br nzp off9) s =
      .next { s with pc := if nzp &&& s.cond.bits ≠ 0#3 then s.pc + off9.signExtend 16 else s.pc } :=
  congrArg Host.Outcome.next (apply_ite (fun w => ({ s with pc := w } : State)) ..).symm

/-- Settles O24: the mask and the flag have a bit in common exactly if the mask names the flag. -/
theorem branchTakenIffTheMaskNamesTheFlag : Obligations.BranchTakenIffTheMaskNamesTheFlag := by
  intro nzp off9 s
  simp only [exec_br, and_condBits_ne_zero_iff]

/-! ### Jumps and calls -/

/-- Settles O26: JMP's meaning as `exec` has it. -/
theorem jumpResult : Obligations.JumpResult := fun _ _ => rfl

/-- Settles O27: JSR's meaning as `exec` has it, the target computed from the pc before the jump. -/
theorem callResult : Obligations.CallResult := fun _ _ => rfl

theorem exec_jsrr (base : Reg) (s : State) :
    exec (.jsrr base) s = .next { s.setReg 7 s.pc with pc := (s.setReg 7 s.pc).reg base } := rfl

/-- Settles O28: after the linkage R7 reads as the saved pc, and any other base as before. -/
theorem callThroughRegisterResult : Obligations.CallThroughRegisterResult := by
  intro base s
  rw [exec_jsrr, State.reg_setReg]
  rfl

end Sys2Proof.Machine
end

section
/-! PROOFS. The statements about spec/42_load_store.md: what each load, LEA and each store leaves. -/

namespace Sys2Proof.Machine

/-! ### Loads -/

theorem exec_ld (dr : Reg) (off9 : BitVec 9) (s : State) :
    exec (.ld dr off9) s = .next (s.loadResult dr (s.pc + off9.signExtend 16)) := rfl

theorem exec_ldr (dr base : Reg) (off6 : BitVec 6) (s : State) :
    exec (.ldr dr base off6) s = .next (s.loadResult dr (s.reg base + off6.signExtend 16)) := rfl

theorem exec_ldi (dr : Reg) (off9 : BitVec 9) (s : State) :
    exec (.ldi dr off9) s = .next ((s.memRead (s.pc + off9.signExtend 16)).2.loadResult dr
      (s.memRead (s.pc + off9.signExtend 16)).1) := rfl

/-- A read keeps the registers, so a load changes after it only the destination and the flag (R35). -/
theorem State.loadResult_eq_memRead (s : State) (dr : Reg) (a : Word) :
    s.loadResult dr a =
      { (s.memRead a).2 with regs := s.regs.set dr (s.memRead a).1, cond := condOf (s.memRead a).1 } := by
  rw [loadResult_eq, writeResult_eq, regs_memRead]

/-- Settles O29: LD and LDR are one load, at two addresses. -/
theorem loadResult : Obligations.LoadResult := by
  intro s dr base off9 off6
  refine ⟨?_, ?_, ?_, ?_⟩
  · rintro _ rfl
    rw [exec_ld, State.loadResult_eq_memRead]
  · rintro _ rfl
    rw [exec_ldr, State.loadResult_eq_memRead]
  · rintro _ rfl ha
    rw [exec_ld, s.loadResult_plain dr ha, State.writeResult_eq]
  · rintro _ rfl ha
    rw [exec_ldr, s.loadResult_plain dr ha, State.writeResult_eq]

/-- Settles O30: LDI is a load from the state its pointer read leaves, and that read keeps the registers. -/
theorem loadIndirectResult : Obligations.LoadIndirectResult := by
  intro s dr off9
  refine ⟨?_, ?_⟩
  · rintro _ _ rfl rfl
    rw [exec_ldi, State.loadResult_eq_memRead, State.regs_memRead]
  · rintro _ _ rfl rfl hp ha
    rw [exec_ldi, s.memRead_plain hp, s.loadResult_plain dr ha, State.writeResult_eq]

theorem exec_lea (dr : Reg) (off9 : BitVec 9) (s : State) :
    exec (.lea dr off9) s = .next (s.writeResult dr (s.pc + off9.signExtend 16)) := rfl

/-- Settles O31: LEA's result is the address, written as an operate instruction's result is. -/
theorem loadEffectiveAddressResult : Obligations.LoadEffectiveAddressResult := by
  rintro s dr off9 _ rfl
  rw [exec_lea, State.writeResult_eq]

/-! ### Stores -/

theorem exec_st (sr : Reg) (off9 : BitVec 9) (s : State) :
    exec (.st sr off9) s = .next (s.memWrite (s.pc + off9.signExtend 16) (s.reg sr)) := rfl

theorem exec_str (sr base : Reg) (off6 : BitVec 6) (s : State) :
    exec (.str sr base off6) s = .next (s.memWrite (s.reg base + off6.signExtend 16) (s.reg sr)) := rfl

/-- The pointer read keeps the registers, so STI stores the source register as it was before it (R95). -/
theorem exec_sti (sr : Reg) (off9 : BitVec 9) (s : State) :
    exec (.sti sr off9) s = .next ((s.memRead (s.pc + off9.signExtend 16)).2.memWrite
      (s.memRead (s.pc + off9.signExtend 16)).1 (s.reg sr)) := by
  rw [← s.reg_memRead (s.pc + off9.signExtend 16) sr]
  rfl

/-- A write changes memory alone, and there one cell (R32). -/
theorem State.memWrite_cells (s : State) (a v : Word) :
    s.memWrite a v = { s with mem := (s.memWrite a v).mem } ∧
    ∀ b, (s.memWrite a v).mem.read b = if b = a then v else s.mem.read b :=
  ⟨rfl, fun b => s.mem.read_write a b v⟩

/-- Settles O32: ST and STR are one write, at two addresses. -/
theorem storeResult : Obligations.StoreResult := fun s sr base off9 off6 =>
  ⟨⟨_, exec_st sr off9 s, s.memWrite_cells ..⟩, ⟨_, exec_str sr base off6 s, s.memWrite_cells ..⟩⟩

/-- Settles O33: STI is a write to the state its pointer read leaves; where that read does not poll, to `s` itself. -/
theorem storeIndirectResult : Obligations.StoreIndirectResult := by
  intro s sr off9
  refine ⟨?_, fun hp => ?_⟩
  · rintro _ rfl
    exact ⟨_, exec_sti sr off9 s, State.memWrite_cells ..⟩
  · refine ⟨_, exec_sti sr off9 s, ?_⟩
    rw [s.memRead_plain hp]
    exact s.memWrite_cells ..

end Sys2Proof.Machine
end

section
/-! PROOFS. The statements about spec/43_trap.md: the string routines as the spec's unbounded loop, the other routines
of TRAP, the vectors with no routine, and a trap that waits. -/

namespace Sys2Proof.Machine

open Sys2Proof.Claims

/-- TRAP's linkage writes R7 alone, so a routine finds the other registers as they were (R100, R126). -/
theorem State.reg_trapEntry_other (s : State) {r : Reg} (h : r ≠ 7) : s.trapEntry.reg r = s.reg r := by
  simp [reg_trapEntry, h]

/-- A state with its own `busy` written again is itself. -/
theorem State.withBusy_self {s : State} {b : Option Busy} (h : s.busy = b) : { s with busy := b } = s := by
  subst h
  rfl

/-! ### The string routines and the unbounded loop -/

section

variable {emit : Word → List Byte} {a : Word} {s t u : State}

/-- The unbounded loop is the walk with as many turns as it takes: to end in `t` is to end there within some number of
Words. -/
theorem stringLoop_iff_walk : StringLoop emit a s t ↔ ∃ n, stringWalk emit n a s = (none, t) := by
  constructor
  · intro h
    induction h with
    | stop hz => exact ⟨1, by rw [stringWalk_succ, if_pos hz]⟩
    | more hz _ ih =>
      obtain ⟨n, hn⟩ := ih
      exact ⟨n + 1, by rw [stringWalk_succ, if_neg hz, hn]⟩
  · rintro ⟨n, h⟩
    induction n generalizing a s with
    | zero => cases h
    | succ n ih =>
      rw [stringWalk_succ] at h
      split at h
      next hz =>
        cases h
        exact .stop hz
      next hz => exact .more hz (ih h)

/-- A string routine with no cycle open closes its cycle in `u` exactly if the unbounded loop ends in `u`
(R103, R105). -/
theorem stringRoutine_closes_iff_loop (more : Word → Busy) (hs : s.busy = none) :
    (stringRoutine emit more a s = .next u ∧ u.busy = none) ↔ StringLoop emit a s u := by
  rw [stringLoop_iff_walk]
  constructor
  · rintro ⟨h, hu⟩
    obtain ⟨hn, e⟩ | ⟨b, -, e⟩ := stringRoutine_cases emit more a s
    · cases h.symm.trans e
      exact ⟨_, Prod.ext hn rfl⟩
    · cases h.symm.trans e
      cases hu
  · rintro ⟨n, hn⟩
    have e := stringRoutine_ends emit more (congrArg Prod.fst hn)
    have hb := busy_stringWalk emit n a s
    rw [hn] at e hb
    exact ⟨e, hb.trans hs⟩

end

theorem putsEmit_eq_putsBytes : putsEmit = putsBytes := rfl

theorem putspEmit_eq_putspBytes : putspEmit = putspBytes := rfl

/-- PUTS is its string routine from the address in R0, after the linkage. -/
theorem exec_puts (s : State) : exec .puts s = stringRoutine putsBytes .puts (s.reg 0) s.trapEntry := by
  rw [← s.reg_trapEntry_other (r := 0) (by decide), ← putsEmit_eq_putsBytes]
  rfl

/-- PUTSP is its string routine from the address in R0, after the linkage. -/
theorem exec_putsp (s : State) : exec .putsp s = stringRoutine putspBytes .putsp (s.reg 0) s.trapEntry := by
  rw [← s.reg_trapEntry_other (r := 0) (by decide), ← putspEmit_eq_putspBytes]
  rfl

/-- Settles O40: a step that starts a string routine or goes on with one closes its cycle exactly where the loop ends,
and a closed INPUT or a named failing poll ends every walk. -/
theorem stringTrapsRunTheLoopAndEnd : Obligations.StringTrapsRunTheLoopAndEnd := by
  intro s hs
  refine ⟨fun u => ?_, fun u => ?_, fun hr a u => ?_, fun h => ?_⟩
  · rw [exec_puts]
    exact stringRoutine_closes_iff_loop .puts hs
  · rw [exec_putsp]
    exact stringRoutine_closes_iff_loop .putsp hs
  · have hstep (b : Busy) : step { s with busy := some b } = resume b s :=
      (step_busy (s := { s with busy := some b }) hr rfl).trans (congrArg (resume b) (State.withBusy_self hs))
    rw [hstep, hstep]
    exact ⟨stringRoutine_closes_iff_loop .puts hs, stringRoutine_closes_iff_loop .putsp hs⟩
  · have hn := not_neverStops h
    rw [← hs]
    exact ⟨exec_puts_ends hn, exec_putsp_ends hn⟩

/-! ### A terminated string -/

section

variable {s : State} {a w : Word} {ws : List Word}

/-- The empty string: a zero Word off the keyboard-status address. -/
theorem holdsString_nil (h : HoldsString s a []) : a ≠ s.cfg.kbsrAddr ∧ s.mem.read a = 0#16 := by
  obtain ⟨hk, -, hz⟩ := h
  simpa using And.intro (hk 0 (Nat.le_refl 0)) hz

/-- The first Word of a string. -/
theorem holdsString_head (h : HoldsString s a (w :: ws)) :
    a ≠ s.cfg.kbsrAddr ∧ s.mem.read a = w ∧ w ≠ 0#16 := by
  obtain ⟨hk, hw, -⟩ := h
  simpa using And.intro (hk 0 (Nat.zero_le _)) (hw 0 (Nat.zero_lt_succ _))

/-- The rest of a string stands at the next address, modulo 65536. -/
theorem holdsString_tail (h : HoldsString s a (w :: ws)) : HoldsString s (a + 1) ws := by
  have next (k : Nat) : a + 1 + BitVec.ofNat 16 k = a + BitVec.ofNat 16 (k + 1) := by
    rw [Nat.add_comm, BitVec.ofNat_add, BitVec.add_assoc]
    rfl
  obtain ⟨hk, hw, hz⟩ := h
  refine ⟨fun k hl => ?_, fun k hl => ?_, ?_⟩ <;> rw [next]
  · exact hk (k + 1) (Nat.succ_le_succ hl)
  · exact hw (k + 1) (Nat.succ_lt_succ hl)
  · exact hz

/-- The walk over a terminated string reads it to its zero Word and writes it whole. -/
theorem stringWalk_of_holdsString (emit : Word → List Byte) (h : HoldsString s a ws) :
    stringWalk emit (ws.length + 1) a s = (none, s.conOut (ws.flatMap emit)) := by
  induction ws generalizing a s with
  | nil =>
    obtain ⟨ha, hz⟩ := holdsString_nil h
    rw [stringWalk_succ, s.memRead_plain ha, if_pos hz]
    simp [State.conOut]
  | cons w ws ih =>
    obtain ⟨ha, rfl, hw⟩ := holdsString_head h
    rw [stringWalk_succ, s.memRead_plain ha, if_neg hw, List.length_cons, ih (s := s.conOut _) (holdsString_tail h)]
    simp

/-- A string routine writes a terminated string and does nothing else. -/
theorem stringRoutine_of_holdsString (emit : Word → List Byte) (more : Word → Busy) (h : HoldsString s a ws) :
    stringRoutine emit more a s = .next (s.conOut (ws.flatMap emit)) := by
  have hw := stringWalk_of_holdsString emit h
  rw [stringRoutine_ends emit more (congrArg Prod.fst hw), hw]

end

/-- Settles O41: the linkage touches no memory, so the routine finds the string as it stood. -/
theorem stringTrapsWriteTheString : Obligations.StringTrapsWriteTheString := by
  intro s ws _ h
  rw [exec_puts, exec_putsp]
  exact ⟨stringRoutine_of_holdsString (s := s.trapEntry) putsBytes .puts h,
    stringRoutine_of_holdsString (s := s.trapEntry) putspBytes .putsp h⟩

/-! ### TRAP by its vector -/

/-- Settles O35: both forms mean what the vector says; a routine that can end does so in one step, and the others never
leave a cycle open. -/
theorem genericTrapDispatchesOnItsVector : Obligations.GenericTrapDispatchesOnItsVector := by
  intro vec s
  refine ⟨(exec_eq_execTrap (kindOf_decodeTrap vec) s).symm, fun hs => ?_⟩
  rw [← hs]
  refine ⟨fun hv hin => ?_, fun hv hin => ?_, fun h20 h22 h23 h24 => ?_⟩
  · have hget {e : Env} (hi : e.input = s.env.input) (ho : e.inputOpen = s.env.inputOpen) : e.kbdGet ≠ none := by
      rw [Ne, Env.kbdGet_eq_none, hi, ho]
      simpa [Classical.or_iff_not_imp_left] using hin
    obtain rfl | rfl := hv
    · exact resume_of_not_neverOver (b := .getc) (s := s.trapEntry) (hget rfl rfl)
    · exact resume_of_not_neverOver (b := .inChar) (s := s.trapEntry.conOut s.cfg.inPrompt) (hget rfl rfl)
  · have hn := not_neverStops hin
    obtain rfl | rfl := hv
    · rw [exec_eq_execTrap (i := .trap _) rfl, execTrap_puts]
      exact exec_puts_ends hn
    · rw [exec_eq_execTrap (i := .trap _) rfl, execTrap_putsp]
      exact exec_putsp_ends hn
  · by_cases hv : knownVector vec
    · obtain rfl | rfl | rfl | rfl | rfl | rfl := knownVector_cases hv
      · exact absurd rfl h20
      · exact ⟨_, rfl, rfl⟩
      · exact absurd rfl h22
      · exact absurd rfl h23
      · exact absurd rfl h24
      · exact ⟨_, rfl, rfl⟩
    · exact ⟨_, execTrap_unknown hv s, rfl⟩

/-- The linkage, then FATAL with the vector, ir and pc (R107). -/
theorem unknownVector_trapEntry (vec : BitVec 8) (s : State) :
    unknownVector vec s.trapEntry =
      .next { s with regs := s.regs.set 7 s.pc, run := .fatal (.unknownTrapVector vec s.ir s.pc) } := rfl

/-- Settles O42: a vector with no routine takes the branch left over, and each of the six rows is that branch. -/
theorem unknownVectorIsFatalAfterTheLinkage : Obligations.UnknownVectorIsFatalAfterTheLinkage := by
  refine fun s => ⟨fun vec hv => ?_, fun _ => unknownVector_trapEntry _ s, fun _ => unknownVector_trapEntry _ s,
    fun _ => unknownVector_trapEntry _ s, fun _ => unknownVector_trapEntry _ s, fun _ => unknownVector_trapEntry _ s,
    fun _ => unknownVector_trapEntry _ s⟩
  rw [exec_eq_execTrap (kindOf_decodeTrap vec), execTrap_unknown hv, unknownVector_trapEntry]

/-! ### The routines that take a character -/

/-- `KbdGet` with no named character and INPUT open takes a free one (log 5). -/
theorem Env.kbdGet_free {e : Env} (hi : e.input = []) (ho : e.inputOpen = true) :
    e.kbdGet = some (e.freeChar, e.takeFree) := by simp [kbdGet, hi, ho]

section

variable {s : State} {c : Byte} {e : Env}

theorem getcRoutine_of_char (h : s.env.kbdGet = some (c, e)) :
    getcRoutine s = .next { s with regs := s.regs.set 0 (c.setWidth 16), env := e } := by
  simp only [getcRoutine, h]
  rfl

theorem getcRoutine_of_none (h : s.env.kbdGet = none) : getcRoutine s = .next { s with busy := some .getc } := by
  simp only [getcRoutine, h]

/-- Taking a character leaves OUTPUT, so the echo follows what `s` has written. -/
theorem inReceive_of_char (h : s.env.kbdGet = some (c, e)) :
    inReceive s = .next { s with
      regs := s.regs.set 0 (c.setWidth 16), env := { e with output := s.env.output ++ [c] } } := by
  rw [← (Env.kbdGet_frame h).1]
  simp only [inReceive, h]
  rfl

theorem inReceive_of_none (h : s.env.kbdGet = none) : inReceive s = .next { s with busy := some .inChar } := by
  simp only [inReceive, h]

end

/-- Settles O55: the step is the rest of the routine, and one that waits again is back in the state it started from. -/
theorem waitingTrapGoesOnWhenACharacterComes : Obligations.WaitingTrapGoesOnWhenACharacterComes := by
  refine fun s hr => ⟨fun hb => ?_, fun hb => ?_⟩ <;> rw [step_busy hr hb]
  · refine ⟨fun c e h => getcRoutine_of_char h, fun hi ho => ?_⟩
    have hwait := getcRoutine_of_none (s := { s with busy := none }) (Env.kbdGet_eq_none.2 ⟨hi, ho⟩)
    exact hwait.trans (congrArg _ (State.withBusy_self hb))
  · refine ⟨fun c e h => inReceive_of_char h, fun hi ho => ?_⟩
    have hwait := inReceive_of_none (s := { s with busy := none }) (Env.kbdGet_eq_none.2 ⟨hi, ho⟩)
    exact hwait.trans (congrArg _ (State.withBusy_self hb))

/-- Settles O36: GETC is the linkage, then its routine on what `KbdGet` answers. -/
theorem getcResult : Obligations.GetcResult := fun s =>
  ⟨fun _ _ hi => getcRoutine_of_char (s := s.trapEntry) (Env.kbdGet_cons hi),
    fun hi ho => getcRoutine_of_char (s := s.trapEntry) (Env.kbdGet_free hi ho),
    fun hi ho => getcRoutine_of_none (s := s.trapEntry) (Env.kbdGet_eq_none.2 ⟨hi, ho⟩)⟩

/-- Output takes nothing from INPUT: `KbdGet` answers after it what it would have answered before. -/
theorem State.kbdGet_conOut {s : State} {c : Byte} {e : Env} (bs : List Byte) (h : s.env.kbdGet = some (c, e)) :
    (s.conOut bs).env.kbdGet = some (c, { e with output := s.env.output ++ bs }) := by
  obtain ⟨cs, hi, rfl⟩ | ⟨hi, ho, rfl, rfl⟩ := Env.kbdGet_cases h
  · exact Env.kbdGet_cons hi
  · exact Env.kbdGet_free hi ho

/-- IN with a character to take: the linkage, the prompt, the echo, the character in R0. -/
theorem exec_inChar_of_char {s : State} {c : Byte} {e : Env} (h : s.env.kbdGet = some (c, e)) :
    exec .inChar s = .next { s with
      regs := (s.regs.set 7 s.pc).set 0 (c.setWidth 16),
      env := { e with output := s.env.output ++ s.cfg.inPrompt ++ [c] } } :=
  (inReceive_of_char (State.kbdGet_conOut (s := s.trapEntry) s.cfg.inPrompt h) :)

/-- Settles O38: IN on what `KbdGet` answers; with no character the prompt alone is written. -/
theorem inResult : Obligations.InResult := fun s =>
  ⟨fun _ _ hi => exec_inChar_of_char (Env.kbdGet_cons hi), fun hi ho => exec_inChar_of_char (Env.kbdGet_free hi ho),
    fun hi ho => inReceive_of_none (s := s.trapEntry.conOut s.cfg.inPrompt) (Env.kbdGet_eq_none.2 ⟨hi, ho⟩)⟩

/-! ### OUT and HALT -/

/-- The byte OUT writes is the Word modulo 256 (R36). -/
theorem toNat_lowByte (w : Word) : (lowByte w).toNat = w.toNat % 256 := BitVec.extractLsb'_toNat ..

/-- OUT is the linkage, then the low byte of R0 on OUTPUT. -/
theorem exec_out (s : State) : exec .out s = .next (s.trapEntry.conOut [lowByte (s.reg 0)]) := by
  rw [← s.reg_trapEntry_other (r := 0) (by decide)]
  rfl

/-- Settles O37, with the low byte of R0. -/
theorem outResult : Obligations.OutResult := ⟨rfl, fun s => ⟨_, toNat_lowByte (s.reg 0), exec_out s⟩⟩

/-- HALT is the linkage, the notice, then HALTED. -/
theorem exec_halt (s : State) : exec .halt s = .next (s.trapEntry.conOut s.cfg.haltNotice).halt := rfl

/-- Settles O39: what the linkage, the output and the stop write. -/
theorem haltResult : Obligations.HaltResult := exec_halt

end Sys2Proof.Machine
end

section
/-! PROOFS. The statement about spec/44_reserved.md: what RES and RTI leave. -/

namespace Sys2Proof.Machine

/-! ### The undefined opcodes -/

/-- RES stops the engine; the payload has the word and the already incremented pc (R116). -/
theorem exec_res (s : State) : exec .res s = .next (s.raiseFatal (.unimplementedOpcode 0b1101#4 s.ir s.pc)) := rfl

/-- RTI stops the engine as RES does, with its own opcode (R117). -/
theorem exec_rti (s : State) : exec .rti s = .next (s.raiseFatal (.unimplementedOpcode 0b1000#4 s.ir s.pc)) := rfl

/-- Settles O43: `raiseFatal` sets the engine state and nothing else. -/
theorem undefinedOpcodesAreFatal : Obligations.UndefinedOpcodesAreFatal := fun s => ⟨exec_res s, exec_rti s⟩

end Sys2Proof.Machine
end

section
/-! PROOFS. The statements about spec/60_exceptions.md: what TRAP saves, the payload of FATAL, what a step does to
OUTPUT and INPUT, and that nothing but FATAL is raised. -/

namespace Sys2Proof.Machine

open Sys2Proof.Claims

/-! ### What TRAP saves -/

theorem kindOf_of_isTrap {i : Instr} (h : isTrap i = true) : ∃ vec, kindOf i = .trap vec := by
  cases i with
  | addReg | addImm | andReg | andImm | not | br | jmp | jsr | jsrr | ld | ldi | ldr | lea | st | sti | str | rti
  | res => cases h
  | _ => exact ⟨_, rfl⟩

/-- Settles O34: the linkage writes R7, the routine after it R0 at most, and both leave all cells but the mapped ones. -/
theorem trapEntrySavesPcInR7AndNothingElse : Obligations.TrapEntrySavesPcInR7AndNothingElse := by
  intro i s t hi h
  obtain ⟨vec, hk⟩ := kindOf_of_isTrap hi
  have he : Effect (.trap vec) s t := hk ▸ effect_of_exec h
  obtain ⟨t', ho, hcells⟩ := execTrap_keepsCells vec s
  cases h.symm.trans ((exec_eq_execTrap hk s).trans ho)
  refine ⟨he.reg_seven_of_trap, he.pc ⟨nofun, nofun⟩, he.cond_of_no_dest rfl, he.ir, hcells.cfg, fun r h7 h0 => ?_,
    hcells.read⟩
  refine he.reg fun hw => ?_
  obtain rfl | ⟨hv, rfl⟩ := hw
  · exact h7 rfl
  · exact h0.elim (· rfl) (· (readsChar_of_trap hk hv))

/-! ### The payload of FATAL -/

/-- FATAL as the Word `w` raises it with pc at `pc`: the vector of a TRAP, else the opcode (R121, D16). -/
def faultOf (w pc : Word) : FatalCause :=
  if w.extractLsb' 12 4 = 0b1111#4 then .unknownTrapVector (w.extractLsb' 0 8) w pc
  else .unimplementedOpcode (w.extractLsb' 12 4) w pc

theorem faultOf_of_trap {w : Word} (h : w.extractLsb' 12 4 = 0b1111#4) (pc : Word) :
    faultOf w pc = .unknownTrapVector (w.extractLsb' 0 8) w pc := if_pos h

theorem faultOf_of_ne_trap {w : Word} {op : BitVec 4} (h : w.extractLsb' 12 4 = op) (hop : op ≠ 0b1111#4) (pc : Word) :
    faultOf w pc = .unimplementedOpcode op w pc := by
  subst h
  exact if_neg hop

/-- A Word of one of the illegal encodings, in `ir`, raises the FATAL that describes it (R59, R121). -/
theorem exec_illegal {w : Word} {s : State} (hir : s.ir = w)
    (h : w.extractLsb' 12 4 = 0b1000#4 ∨ w.extractLsb' 12 4 = 0b1101#4 ∨
      (w.extractLsb' 12 4 = 0b1111#4 ∧ ¬ knownVector (w.extractLsb' 0 8))) :
    ∃ t, exec (decode w) s = .next t ∧ t.run = .fatal (faultOf w s.pc) := by
  subst hir
  obtain ho | ho | ⟨ho, hv⟩ := h
  · rw [faultOf_of_ne_trap ho (by decide), Encodes.decode_eq (i := .rti) ⟨ho, trivial⟩ rfl]
    exact ⟨_, exec_rti s, rfl⟩
  · rw [faultOf_of_ne_trap ho (by decide), Encodes.decode_eq (i := .res) ⟨ho, trivial⟩ rfl]
    exact ⟨_, exec_res s, rfl⟩
  · obtain ⟨hunknown, -⟩ := unknownVectorIsFatalAfterTheLinkage s
    rw [faultOf_of_trap ho, decode_of_trap ho]
    exact ⟨_, hunknown _ hv, rfl⟩

/-- An instruction that stops the engine writes neither pc nor ir. -/
theorem Effect.frame_of_fatal {k : Kind} {s t : State} {cause : FatalCause} (h : Effect k s t) (hs : s.run = .running)
    (ht : t.run = .fatal cause) : t.pc = s.pc ∧ t.ir = s.ir := by
  refine ⟨h.pc ?_, h.ir⟩
  obtain rfl | ⟨vec, rfl, -⟩ := (h.fatal_iff hs).1 ⟨cause, ht⟩ <;> exact ⟨nofun, nofun⟩

/-- Settles O45: an open cycle stays RUNNING, and in a whole one only an illegal Word raises FATAL, the one that
describes it. -/
theorem fatalPayloadDescribesTheFaultingWord : Obligations.FatalPayloadDescribesTheFaultingWord := by
  intro s t cause h ht
  obtain ⟨hr, hopen, -⟩ := engineLeavesRunningOnlyByHaltOrFatal.2 s t h
  have hb : s.busy = none := by
    by_contra hb
    cases ht.symm.trans (hopen hb)
  rw [step_idle hr hb] at h
  have hrun : s.fetch.2.run = .running := by simp [hr]
  obtain ⟨hpc, hir⟩ := (effect_of_exec h).frame_of_fatal hrun ht
  obtain ⟨t', ho, ht'⟩ := exec_illegal (s := s.fetch.2) rfl
    ((fatalWordsAreExactlyTheIllegalOnes s.fetch.1 s.fetch.2 hrun).1 ⟨t, cause, h, ht⟩)
  cases h.symm.trans ho
  rw [s.pc_fetch] at hpc ht'
  cases ht.symm.trans ht'
  exact ⟨hb, hir, hpc, rfl⟩

/-! ### INPUT: what is left after some characters have been taken -/

/-- From `e` to `e'` INPUT loses what `KbdGet` takes in some number of calls. -/
def TakesInput (e e' : Env) : Prop := ∃ n, (afterTaking n e).map inputLeft = some (inputLeft e')

theorem afterTaking_succ (n : Nat) (e : Env) :
    afterTaking (n + 1) e = e.kbdGet.bind fun p => afterTaking n p.2 := by
  rw [afterTaking]
  cases e.kbdGet <;> rfl

/-- To take `m` characters and then `n` is to take `m + n`. -/
theorem afterTaking_add (m n : Nat) (e : Env) : afterTaking (m + n) e = (afterTaking m e).bind (afterTaking n) := by
  induction m generalizing e with
  | zero => rw [Nat.zero_add]; rfl
  | succ m ih => simp [Nat.add_right_comm m 1 n, afterTaking_succ, ih, Option.bind_assoc]

/-- What taking characters leaves of INPUT depends on what was left of it alone. -/
theorem afterTaking_of_inputLeft_eq (n : Nat) {e e₁ : Env} (h : inputLeft e = inputLeft e₁) :
    (afterTaking n e).map inputLeft = (afterTaking n e₁).map inputLeft := by
  induction n generalizing e e₁ with
  | zero => exact congrArg some h
  | succ n ih =>
    have hget := kbdGet_of_inputLeft_eq h
    rw [afterTaking_succ, afterTaking_succ]
    cases hg : e₁.kbdGet with
    | none =>
      rw [hg] at hget
      rw [Option.map_eq_none_iff.1 hget]
    | some p₁ =>
      rw [hg] at hget
      obtain ⟨p, hp, hl⟩ := Option.map_eq_some_iff.1 hget
      rw [hp]
      exact ih (Prod.mk.inj hl).2

namespace TakesInput

variable {e e' e'' : Env}

theorem of_eq (h : inputLeft e' = inputLeft e) : TakesInput e e' := ⟨0, congrArg some h.symm⟩

theorem refl (e : Env) : TakesInput e e := of_eq rfl

theorem trans (h : TakesInput e e') (h' : TakesInput e' e'') : TakesInput e e'' := by
  obtain ⟨m, hm⟩ := h
  obtain ⟨n, hn⟩ := h'
  obtain ⟨e₁, he₁, hl⟩ := Option.map_eq_some_iff.1 hm
  refine ⟨m + n, ?_⟩
  rw [afterTaking_add, he₁, Option.bind_some, afterTaking_of_inputLeft_eq n hl, hn]

theorem kbdGet {c : Byte} (h : e.kbdGet = some (c, e')) : TakesInput e e' := ⟨1, by simp [afterTaking, h]⟩

theorem kbdPoll (e : Env) : TakesInput e e.kbdPoll.2 := by
  obtain ⟨-, hl⟩ | ⟨c, e₁, -, hg, hl⟩ := kbdPoll_inputLeft e
  · exact of_eq hl
  · exact (kbdGet hg).trans (of_eq hl)

theorem memRead (s : State) (a : Word) : TakesInput s.env (s.memRead a).2.env := by
  obtain ⟨-, hr⟩ | ⟨-, hr⟩ := s.memRead_cases a
  · rw [hr]; exact refl _
  · rw [hr, State.env_pollKeyboard]; exact kbdPoll _

end TakesInput

/-- What taking characters does to the four parts of INPUT (log 5): the list loses a front part, the free characters are
taken in order, and only once the list is used up. -/
structure Shrinks (e e' : Env) : Prop where
  input : e'.input <:+ e.input
  isOpen : e'.inputOpen = e.inputOpen
  nuls : e.nuls ≤ e'.nuls
  sinceNul : e.nuls = e'.nuls → e.sinceNul ≤ e'.sinceNul
  used : e'.nuls ≠ e.nuls ∨ e'.sinceNul ≠ e.sinceNul → e'.input = []

namespace Shrinks

variable {e e' e'' : Env}

theorem of_eq (h : inputLeft e' = inputLeft e) : Shrinks e e' := by
  obtain ⟨hi, ho, hn, hz⟩ : e'.input = e.input ∧ e'.inputOpen = e.inputOpen ∧ e'.nuls = e.nuls ∧
    e'.sinceNul = e.sinceNul := by simpa [inputLeft] using h
  exact ⟨hi ▸ List.suffix_refl _, ho, hn.ge, fun _ => hz.ge, fun h => (h.elim (· hn) (· hz)).elim⟩

/-- If the first part has used up the list, the second finds it so; if not, the free characters stand after it where they
stood before. -/
theorem trans (h : Shrinks e e') (h' : Shrinks e' e'') : Shrinks e e'' := by
  refine ⟨h'.input.trans h.input, h'.isOpen.trans h.isOpen, h.nuls.trans h'.nuls, fun hn => ?_, fun hne => ?_⟩
  · have hmid : e.nuls = e'.nuls := h.nuls.antisymm (hn ▸ h'.nuls)
    exact (h.sinceNul hmid).trans (h'.sinceNul (hmid.symm.trans hn))
  · by_cases hfirst : e'.nuls ≠ e.nuls ∨ e'.sinceNul ≠ e.sinceNul
    · exact List.suffix_nil.1 (h.used hfirst ▸ h'.input)
    · obtain ⟨hn, hz⟩ := not_or.1 hfirst
      rw [not_not] at hn hz
      exact h'.used (by rwa [hn, hz])

theorem kbdGet {c : Byte} (h : e.kbdGet = some (c, e')) : Shrinks e e' := by
  obtain ⟨cs, hi, rfl⟩ | ⟨hi, -, -, rfl⟩ := Env.kbdGet_cases h
  · exact ⟨hi ▸ List.suffix_cons c cs, rfl, le_rfl, fun _ => le_rfl, fun h => (h.elim (· rfl) (· rfl)).elim⟩
  · refine ⟨List.suffix_refl _, rfl, ?_, ?_, fun _ => hi⟩ <;> simp only [Env.takeFree] <;> split <;> omega

theorem afterTaking {n : Nat} (h : afterTaking n e = some e') : Shrinks e e' := by
  induction n generalizing e with
  | zero =>
    cases h
    exact of_eq rfl
  | succ n ih =>
    rw [afterTaking_succ] at h
    obtain ⟨⟨c, e₁⟩, hg, hn⟩ := Option.bind_eq_some_iff.1 h
    exact (kbdGet hg).trans (ih hn)

end Shrinks

theorem TakesInput.shrinks {e e' : Env} (h : TakesInput e e') : Shrinks e e' := by
  obtain ⟨n, hn⟩ := h
  obtain ⟨e₁, he₁, hl⟩ := Option.map_eq_some_iff.1 hn
  exact (Shrinks.afterTaking he₁).trans (.of_eq hl.symm)

/-! ### OUTPUT and INPUT over a step -/

/-- From `e` to `e'` OUTPUT grows at its end, and INPUT loses characters from its front. -/
structure Moves (e e' : Env) : Prop where
  output : e.output <+: e'.output
  input : TakesInput e e'

namespace Moves

variable {e e' e'' : Env}

theorem of_input (ho : e'.output = e.output) (h : TakesInput e e') : Moves e e' := ⟨ho ▸ List.prefix_refl _, h⟩

theorem refl (e : Env) : Moves e e := of_input rfl (.refl e)

theorem trans (h : Moves e e') (h' : Moves e' e'') : Moves e e'' :=
  ⟨h.output.trans h'.output, h.input.trans h'.input⟩

theorem kbdGet {c : Byte} (h : e.kbdGet = some (c, e')) : Moves e e' := of_input (Env.kbdGet_frame h).1 (.kbdGet h)

theorem memRead (s : State) (a : Word) : Moves s.env (s.memRead a).2.env := of_input (s.output_memRead a) (.memRead s a)

theorem conOut (s : State) (bs : List Byte) : Moves s.env (s.conOut bs).env :=
  ⟨List.prefix_append _ _, .of_eq rfl⟩

theorem stringWalk (emit : Word → List Byte) (n : Nat) (a : Word) (s : State) :
    Moves s.env (stringWalk emit n a s).2.env :=
  stringWalk_induct (P := fun t => Moves s.env t.env) (fun u b h => h.trans (memRead u b))
    (fun u bs h => h.trans (conOut u bs)) (refl s.env)

end Moves

/-- A string routine reads and writes, whether its walk ends or not. -/
theorem stringRoutine_moves (emit : Word → List Byte) (more : Word → Busy) (a : Word) (s : State) :
    ∃ t, stringRoutine emit more a s = .next t ∧ Moves s.env t.env := by
  have hw := Moves.stringWalk emit (walkFuel s) a s
  obtain ⟨-, ho⟩ | ⟨b, -, ho⟩ := stringRoutine_cases emit more a s <;> exact ⟨_, ho, hw⟩

/-- A routine that may wait or walk for ever takes a character, and in IN echoes it, or waits, or is a string routine. -/
theorem resume_moves (b : Busy) (s : State) : ∃ t, resume b s = .next t ∧ Moves s.env t.env := by
  cases b with
  | getc =>
    obtain ⟨c, e, hg, ho⟩ | ⟨-, ho⟩ := getcRoutine_cases s
    · exact ⟨_, ho, .kbdGet hg⟩
    · exact ⟨_, ho, .refl _⟩
  | inChar =>
    obtain ⟨c, e, hg, ho⟩ | ⟨-, ho⟩ := inReceive_cases s
    · exact ⟨_, ho, (Moves.kbdGet hg).trans (.conOut { s with env := e } [c])⟩
    · exact ⟨_, ho, .refl _⟩
  | puts a => exact stringRoutine_moves putsEmit .puts a s
  | putsp a => exact stringRoutine_moves putspEmit .putsp a s

/-- TRAP, by its vector (R100): what its routine does, after IN's prompt; HALT writes its notice. -/
theorem execTrap_moves (vec : BitVec 8) (s : State) : ∃ t, execTrap vec s = .next t ∧ Moves s.env t.env := by
  unfold execTrap
  dsimp only
  split_ifs
  · exact resume_moves .getc s.trapEntry
  · exact ⟨_, rfl, .conOut s _⟩
  · exact resume_moves (.puts _) s.trapEntry
  · obtain ⟨t, ho, ht⟩ := resume_moves .inChar (s.trapEntry.conOut s.cfg.inPrompt)
    exact ⟨t, ho, (Moves.conOut s _).trans ht⟩
  · exact resume_moves (.putsp _) s.trapEntry
  · exact ⟨_, rfl, .conOut s _⟩
  · exact ⟨_, rfl, .refl _⟩

/-- An instruction that is none of the writing traps leaves OUTPUT, and takes characters at most (R131). -/
theorem exec_of_not_mayOutput {i : Instr} (s : State) (hi : mayOutput i = false) :
    ∃ t, exec i s = .next t ∧ t.env.output = s.env.output ∧ TakesInput s.env t.env := by
  cases i with
  | trap | out | puts | inChar | putsp | halt => cases hi
  | addReg | addImm | andReg | andImm | not | jmp | jsr | jsrr | lea | st | str | trapUnknown80 | trapUnknown40
  | trapUnknown00 | trapUnknown30 | trapUnknown28 | trapUnknown26 | rti | res => exact ⟨_, rfl, rfl, .refl _⟩
  | br nzp off9 =>
    refine ⟨_, rfl, ?_⟩
    split <;> exact ⟨rfl, .refl _⟩
  | ld | ldr | sti => exact ⟨_, rfl, State.output_memRead .., .memRead ..⟩
  | ldi => exact ⟨_, rfl, by simp [loadResult_eq], (TakesInput.memRead ..).trans (.memRead ..)⟩
  | getc =>
    obtain ⟨c, e, hg, ho⟩ | ⟨-, ho⟩ := getcRoutine_cases s.trapEntry
    · exact ⟨_, ho, (Env.kbdGet_frame hg).1, .kbdGet hg⟩
    · exact ⟨_, ho, rfl, .refl _⟩

/-- The instructions that may write OUTPUT are traps (R131). -/
theorem kindOf_of_mayOutput {i : Instr} (h : mayOutput i = true) : ∃ vec, kindOf i = .trap vec := by
  cases i with
  | trap | out | puts | inChar | putsp | halt => exact ⟨_, rfl⟩
  | _ => cases h

theorem exec_moves (i : Instr) (s : State) : ∃ t, exec i s = .next t ∧ Moves s.env t.env := by
  cases hi : mayOutput i with
  | false =>
    obtain ⟨t, ho, hout, hin⟩ := exec_of_not_mayOutput s hi
    exact ⟨t, ho, .of_input hout hin⟩
  | true =>
    obtain ⟨vec, hk⟩ := kindOf_of_mayOutput hi
    rw [exec_eq_execTrap hk]
    exact execTrap_moves vec s

/-- A step in RUNNING answers a next state, and moves OUTPUT and INPUT forward only. -/
theorem step_moves {s : State} (hr : s.run = .running) : ∃ t, step s = .next t ∧ Moves s.env t.env := by
  cases hb : s.busy with
  | none =>
    obtain ⟨t, ho, ht⟩ := exec_moves (decode s.fetch.1) s.fetch.2
    exact ⟨t, (step_idle hr hb).trans ho, (Moves.memRead s s.pc).trans ht⟩
  | some b =>
    obtain ⟨t, ho, ht⟩ := resume_moves b { s with busy := none }
    exact ⟨t, (step_busy hr hb).trans ho, ht⟩

/-- Settles O50: every read, output and routine of a step appends to OUTPUT and takes from the front of INPUT, and what
taking does to the named and the free characters follows by induction on their number. -/
theorem outputOnlyGrowsAndInputOnlyShrinks : Obligations.OutputOnlyGrowsAndInputOnlyShrinks := by
  refine ⟨fun i s t h hi => ?_, fun s t h => ?_⟩
  · obtain ⟨t', ho, hout, -⟩ := exec_of_not_mayOutput s hi
    cases h.symm.trans ho
    exact hout
  · obtain ⟨t', ho, hout, hin⟩ := step_moves (running_of_step h)
    cases h.symm.trans ho
    obtain ⟨hi, hopen, hnuls, hsince, hused⟩ := hin.shrinks
    obtain ⟨n, hn⟩ := hin
    obtain ⟨e, he, hl⟩ := Option.map_eq_some_iff.1 hn
    exact ⟨hout, ⟨n, e, he, hl.symm⟩, hi, hopen, hnuls, hsince, hused⟩

/-! ### Every instruction answers a next state -/

/-- Every instruction but GETC, IN, PUTS and PUTSP leaves the cycle as it is (log 7, log 8). -/
theorem exec_keeps_busy_or_may_wait (i : Instr) (s : State) :
    (∃ t, exec i s = .next t ∧ t.busy = s.busy) ∨
      readsChar i ∨ i = .puts ∨ i = .putsp ∨ i = .trap 0x22#8 ∨ i = .trap 0x24#8 := by
  cases i with
  | addReg | addImm | andReg | andImm | not | jmp | jsr | jsrr | lea | st | str | out | halt | trapUnknown80
  | trapUnknown40 | trapUnknown00 | trapUnknown30 | trapUnknown28 | trapUnknown26 | rti | res =>
    exact .inl ⟨_, rfl, rfl⟩
  | br nzp off9 => exact .inl ⟨_, rfl, by split <;> rfl⟩
  | ld | ldr => exact .inl ⟨_, rfl, State.busy_loadResult ..⟩
  | ldi | sti => exact .inl ⟨_, rfl, by simp⟩
  | getc => exact .inr (.inl (.inl rfl))
  | inChar => exact .inr (.inl (.inr (.inl rfl)))
  | puts | putsp => simp
  | trap vec =>
    by_cases hv : knownVector vec
    · obtain rfl | rfl | rfl | rfl | rfl | rfl := knownVector_cases hv
      · exact .inr (.inl (readsChar_of_trap rfl (.inl rfl)))
      · exact .inl ⟨_, rfl, rfl⟩
      · simp
      · exact .inr (.inl (readsChar_of_trap rfl (.inr rfl)))
      · simp
      · exact .inl ⟨_, rfl, rfl⟩
    · exact .inl ⟨_, execTrap_unknown hv s, rfl⟩

/-- Settles O56: an instruction that may wait has an effect all the same, and a step is an instruction or a routine. -/
theorem runningMachineAlwaysAnswersNext : Obligations.RunningMachineAlwaysAnswersNext := by
  refine ⟨fun i s => ?_, fun s hr => (step_moves hr).imp fun _ => And.left⟩
  obtain ⟨t, ho, hb⟩ | hwait := exec_keeps_busy_or_may_wait i s
  · exact ⟨t, ho, .inl hb⟩
  · obtain ⟨t, ho, -⟩ := exec_effect i s
    exact ⟨t, ho, .inr hwait⟩

end Sys2Proof.Machine
end
